-- ==== Sys2Proof/Word.lean ====
section
/-! DEFINITION. The fixed-width values of the block: 00_scope.md R6, 10_state.md R21, R23. -/

namespace Sys2Proof

/-- A command word, or one 32-bit lane (10_state.md R23, 00_scope.md R11). -/
abbrev W32 := BitVec 32

/-- A full-width vector value (10_state.md R21). -/
abbrev V128 := BitVec 128

/-- A half-width vector value (10_state.md R21, 40_view.md R75). -/
abbrev V64 := BitVec 64

end Sys2Proof
end

