-- ==== Sys2Proof/Config.lean ====
section
/-! DEFINITION. The open parameters of 00_scope.md R7 as plain data (State carries one such record, which no step
changes, so a statement over every state is a statement over every implementation; log entry 1), and the free values. -/

namespace Sys2Proof

/-- The cycles from acceptance to response, one per command kind (00_scope.md R7, 70_reset_and_hazards.md R155, R156). -/
structure Latencies where
  view    : Nat
  sel     : Nat
  hsum    : Nat
  hmaxU8  : Nat
  hmaxS16 : Nat
  shift   : Nat
  log     : Nat
  exp     : Nat
  illegal : Nat
deriving DecidableEq, Repr

/-- Which per-lane function an implementation has for `LOGF` or `EXPF`: the reference algorithm, or the free
function of that number (44_log.md R105, 45_exp.md R120, 93_implementation_defined.md I1). -/
inductive LaneImpl where
  | reference
  | free (id : Nat)
deriving DecidableEq, Repr

/-- The parameters of 00_scope.md R7 and the bound of 70_reset_and_hazards.md R149 (`readyHoldMax`: how many edges in
a row the block may hold `cmd_ready` at 0 although its queue has room). -/
structure Config where
  inflightMax  : Nat
  resetCycles  : Nat
  readyHoldMax : Nat
  lat          : Latencies
  nanOut       : W32
  logImpl      : LaneImpl
  expImpl      : LaneImpl
  logMaxUlp    : Nat
  expMaxUlp    : Nat
deriving DecidableEq, Repr

/-- The configuration of `State.reset`. `nanOut`, `logImpl`, `expImpl`, `logMaxUlp`, `expMaxUlp` are the spec's
defaults (00_scope.md R7). The others are OPEN in the spec: DESIGN CHOICE, log entry 1 (unsafe for a claim that leans
on them). -/
def Config.default : Config where
  inflightMax := 2
  resetCycles := 1
  readyHoldMax := 0
  lat := ⟨1, 1, 1, 1, 1, 1, 1, 1, 1⟩
  nanOut := 0x7FC00000#32
  logImpl := .reference
  expImpl := .reference
  logMaxUlp := 2
  expMaxUlp := 2

/-- What the implementation of number `id` answers for `LOGF` on a lane: a free value (44_log.md R104, R105). -/
opaque Config.freeLog : Nat → W32 → W32

/-- What the implementation of number `id` answers for `EXPF` on a lane: a free value (45_exp.md R120). -/
opaque Config.freeExp : Nat → W32 → W32

/-- `rsp_data` in a cycle with `rsp_valid = 0`: a free value for each cycle (10_state.md R34, U1). -/
opaque Config.freeIdleData : Nat → V128

/-- `rsp_illegal` in a cycle with `rsp_valid = 0`: a free value for each cycle (10_state.md R34, U1). -/
opaque Config.freeIdleIllegal : Nat → Bool

/-- The smallest input that `EXP.F32` maps to `+inf` (45_exp.md R117, R122; decided by D20, log entry 8). -/
def Config.expHi : W32 := 0x42B17218#32

/-- The smallest input that `EXP.F32` does not flush to `+0` (45_exp.md R118, R122; decided by D20, log entry 8). -/
def Config.expLo : W32 := 0xC2AEAC4F#32

end Sys2Proof
end

