-- ==== Sys2Proof/Syntax.lean ====
section
/-! DEFINITION. The commands of spec/opcode_table.json (30_encoding.md R55, R66) and the view names of R53. -/

namespace Sys2Proof

/-- The lane views of 30_encoding.md R53 that have a code, in the order of their codes: nine of a V128 (40_view.md
R70), five of a V64 (R71). The views of R76 do not exist, so they have no constructor. -/
inductive View where
  | i8x16 | u8x16 | i16x8 | u16x8 | i32x4 | u32x4 | i64x2 | u64x2 | f32x4
  | i8x8 | u8x8 | i64x1 | u64x1 | f32x2
deriving DecidableEq, Repr

/-- One constructor per row of the opcode table. No command has an immediate (R57): `VIEW` carries its two view
codes, the others carry nothing. -/
inductive Instr where
  | view (source target : View)
  | sel
  | hsumF32
  | hmaxU8
  | hmaxS16
  | rshiftF32
  | lshiftF32
  | logF32
  | expF32
deriving DecidableEq, Repr

end Sys2Proof
end

