-- ==== Sys2Proof/Machine/State.lean ====
section
/-! DEFINITION. The state: the in-flight queue and the reset bit of 10_state.md R31, R32, the ports of R25, and the
model's own fields (configuration, the host's side, counters), all plain data. -/

namespace Sys2Proof.Machine

/-- A response: `rsp_data` and `rsp_illegal` (10_state.md R24). -/
structure Response where
  data    : V128
  illegal : Bool
deriving DecidableEq, Repr

/-- An entry of the in-flight queue: a response, and how many edges must still pass before it may be taken (0: it may
be taken at the next edge; 70_reset_and_hazards.md R150, R155). -/
structure Entry where
  resp : Response
  wait : Nat
deriving DecidableEq, Repr

/-- The signals the host drives in one cycle (10_state.md R25, direction `in`). -/
structure Port where
  rst      : Bool
  cmdValid : Bool
  cmdWord  : W32
  cmdA     : V128
  cmdB     : V128
  cmdM     : V128
  rspReady : Bool
deriving DecidableEq, Repr

/-- One cycle to come: what the host drives in it, and whether the block chooses to hold `cmd_ready` at 0 in it
(70_reset_and_hazards.md R149; log entries 2 and 4). -/
structure Cycle where
  port : Port
  hold : Bool
deriving DecidableEq, Repr

/-- The state in one cycle, before the rising edge that ends it. `queue` and `inReset` are the spec's state (10_state.md
R32), `port` its input ports; the others are the model's own (INVENTORY.md, State). -/
structure State where
  cfg       : Config
  queue     : List Entry
  inReset   : Bool
  port      : Port
  hold      : Bool
  stalled   : Nat
  resetHeld : Nat
  script    : List Cycle
  received  : List Response
  tick      : Nat
deriving DecidableEq, Repr

/-- There is no fault: the block has no traps, and its one exceptional outcome is a response (60_exceptions.md R130,
R131, R136). Nobody raises one. -/
inductive Fault where
deriving DecidableEq, Repr

/-- Why a step is refused. Safe: the model stops where the spec says nothing of what happens. -/
inductive Refusal where
  /-- An instruction without a meaning; raised by no arm of `exec`. Safe. -/
  | notModelled (mnemonic : String)
  /-- H1 of 93_implementation_defined.md: the host drops or changes an offered command before it is accepted
  (70_reset_and_hazards.md R148). Raised by `driveNext`, never by an instruction. Safe. -/
  | changedOffer
  /-- H2 of 93_implementation_defined.md: the host releases `rst` before `RESET_CYCLES` edges (70_reset_and_hazards.md
  R145). Raised by `driveNext`, never by an instruction. Safe. -/
  | shortReset
deriving DecidableEq, Repr

/-- The host drives nothing: no reset, no command, no response taken. -/
def Port.idle : Port where
  rst := false
  cmdValid := false
  cmdWord := 0
  cmdA := 0
  cmdB := 0
  cmdM := 0
  rspReady := false

/-- The block of configuration `c` right after its reset is released (10_state.md R34, 70_reset_and_hazards.md R146): the
queue is empty and `inReset` is false. The ports and the model's own fields: log entries 2 to 5, 9. -/
def State.resetWith (c : Config) : State where
  cfg := c
  queue := []
  inReset := false
  port := Port.idle
  hold := false
  stalled := 0
  resetHeld := 0
  script := []
  received := []
  tick := 0

/-- The machine right after reset, in the default configuration (log entry 1). -/
def State.reset : State := State.resetWith Config.default

end Sys2Proof.Machine
end

