-- ==== Sys2Proof/Machine/Flags.lean ====
section
/-! DEFINITION. The block has no flags and records no IEEE-754 exception (10_state.md R28, 60_exceptions.md R133): there
is no flag computation. Here stand the float32 classes of 00_scope.md R11, the only conditions the rules test. -/

namespace Sys2Proof.Machine

/-- The sign bit `b[31]` (00_scope.md R11). -/
def signBit (b : W32) : Bool := b.getLsbD 31

/-- The biased exponent `b[30:23]` (00_scope.md R11). -/
def expField (b : W32) : Nat := (b.extractLsb' 23 8).toNat

/-- The fraction `b[22:0]` (00_scope.md R11). -/
def fracField (b : W32) : Nat := (b.extractLsb' 0 23).toNat

/-- The classes of 00_scope.md R11. -/
def isNaN (b : W32) : Bool := expField b == 0xFF && fracField b != 0
@[inherit_doc isNaN] def isInf (b : W32) : Bool := expField b == 0xFF && fracField b == 0
@[inherit_doc isNaN] def isZero (b : W32) : Bool := expField b == 0 && fracField b == 0
@[inherit_doc isNaN] def isSubnormal (b : W32) : Bool := expField b == 0 && fracField b != 0
@[inherit_doc isNaN] def isNormal (b : W32) : Bool := 0 < expField b && expField b < 0xFF
/-- A zero, a subnormal or a normal. -/
def isFinite (b : W32) : Bool := expField b < 0xFF

end Sys2Proof.Machine
end

