-- ==== Sys2Proof/WellFormed.lean ====
section
/-! DEFINITION. What a well-formed instruction is (30_encoding.md R59) and what a configuration inside the spec is
(00_scope.md R7). -/

namespace Sys2Proof

/-- The view is one of a V64 (30_encoding.md R53, column `storage`). -/
def View.isHalf : View → Bool
  | .i8x16 | .u8x16 | .i16x8 | .u16x8 | .i32x4 | .u32x4 | .i64x2 | .u64x2 | .f32x4 => false
  | .i8x8 | .u8x8 | .i64x1 | .u64x1 | .f32x2 => true

/-- A `VIEW` names two views of one storage width (R59); every other command is well formed. -/
def Instr.wellFormed : Instr → Bool
  | .view f t => f.isHalf == t.isHalf
  | .sel | .hsumF32 | .hmaxU8 | .hmaxS16 | .rshiftF32 | .lshiftF32 | .logF32 | .expF32 => true

/-- Every latency is at least 1 (70_reset_and_hazards.md R152, R155). -/
def Latencies.wf (l : Latencies) : Bool :=
  (1 ≤ l.view) && (1 ≤ l.sel) && (1 ≤ l.hsum) && (1 ≤ l.hmaxU8) && (1 ≤ l.hmaxS16) && (1 ≤ l.shift) &&
    (1 ≤ l.log) && (1 ≤ l.exp) && (1 ≤ l.illegal)

/-- The limits the spec sets on the open parameters: `INFLIGHT_MAX`, `RESET_CYCLES` and every latency at least 1
(R7), `NAN_OUT` a NaN pattern (R7, R11), and accuracy bounds of at least 1 ULP (log entry 10). -/
def Config.wf (c : Config) : Bool :=
  (1 ≤ c.inflightMax) && (1 ≤ c.resetCycles) && c.lat.wf &&
    (c.nanOut.extractLsb' 23 8 == 0xFF#8) && (c.nanOut.extractLsb' 0 23 != 0#23) &&
    (1 ≤ c.logMaxUlp) && (1 ≤ c.expMaxUlp)

end Sys2Proof
end

