-- ==== Sys2Proof/Decode.lean ====
section
/-! DEFINITION. The decoder of 30_encoding.md R60 (total on every 32-bit word, rejecting by name), and the encoder
written from the same tables (R53, R55, R66). -/

namespace Sys2Proof

/-- `OP`, `VFROM`, `VTO`, `RSV` of a command word (R50 to R52, R54). -/
def opField (w : W32) : BitVec 8 := w.extractLsb' 0 8
@[inherit_doc opField] def vfromField (w : W32) : BitVec 4 := w.extractLsb' 8 4
@[inherit_doc opField] def vtoField (w : W32) : BitVec 4 := w.extractLsb' 12 4
@[inherit_doc opField] def rsvField (w : W32) : BitVec 16 := w.extractLsb' 16 16

/-- The four illegal cases of 30_encoding.md R67. The response does not say which applied (60_exceptions.md R132). -/
inductive Reject where
  /-- R67 (a): `RSV != 0`. -/
  | reservedBits
  /-- R67 (b): `OP` is a reserved opcode (R56). -/
  | reservedOpcode
  /-- R67 (c): `VFROM` or `VTO` is not 0 outside `VIEW` (R52). -/
  | strayViewCode
  /-- R67 (d): the pair of view codes is not legal (R59). -/
  | illegalViewPair
deriving DecidableEq, Repr

/-- The view of a code (R53); `0xE` and `0xF` are reserved. -/
def viewOfCode (c : BitVec 4) : Option View :=
  match c.toNat with
  | 0x0 => some .i8x16
  | 0x1 => some .u8x16
  | 0x2 => some .i16x8
  | 0x3 => some .u16x8
  | 0x4 => some .i32x4
  | 0x5 => some .u32x4
  | 0x6 => some .i64x2
  | 0x7 => some .u64x2
  | 0x8 => some .f32x4
  | 0x9 => some .i8x8
  | 0xA => some .u8x8
  | 0xB => some .i64x1
  | 0xC => some .u64x1
  | 0xD => some .f32x2
  | _   => none

/-- `viewPairLegal(f, t)` of R59: both codes in `0x0`-`0x8`, or both in `0x9`-`0xD`. -/
def viewPairLegal (f t : BitVec 4) : Bool :=
  (f.toNat ≤ 0x8 && t.toNat ≤ 0x8) ||
    (0x9 ≤ f.toNat && f.toNat ≤ 0xD && 0x9 ≤ t.toNat && t.toNat ≤ 0xD)

/-- The `VIEW` arm of R60. -/
def decodeView (f t : BitVec 4) : Except Reject Instr :=
  if viewPairLegal f t then
    match viewOfCode f, viewOfCode t with
    | some p, some q => .ok (.view p q)
    | _, _ => .error .illegalViewPair
  else .error .illegalViewPair

/-- The opcode case of R60 for a word whose `RSV` is 0 and, outside `VIEW`, whose view fields are 0 (R55). -/
def decodeOpcode (op : BitVec 8) (f t : BitVec 4) : Except Reject Instr :=
  match op.toNat with
  | 0x01 => decodeView f t
  | 0x10 => .ok .sel
  | 0x20 => .ok .hsumF32
  | 0x21 => .ok .hmaxU8
  | 0x22 => .ok .hmaxS16
  | 0x30 => .ok .rshiftF32
  | 0x31 => .ok .lshiftF32
  | 0x40 => .ok .logF32
  | 0x41 => .ok .expF32
  | _    => .error .reservedOpcode

/-- The decoder, in the order of R60. A function of the word alone (R61). -/
def decode (w : W32) : Except Reject Instr :=
  if rsvField w ≠ 0#16 then .error .reservedBits
  else if opField w ≠ 0x01#8 ∧ (vfromField w ≠ 0#4 ∨ vtoField w ≠ 0#4) then .error .strayViewCode
  else decodeOpcode (opField w) (vfromField w) (vtoField w)

/-- The code of a view (R53). -/
def View.code : View → BitVec 4
  | .i8x16 => 0x0
  | .u8x16 => 0x1
  | .i16x8 => 0x2
  | .u16x8 => 0x3
  | .i32x4 => 0x4
  | .u32x4 => 0x5
  | .i64x2 => 0x6
  | .u64x2 => 0x7
  | .f32x4 => 0x8
  | .i8x8  => 0x9
  | .u8x8  => 0xA
  | .i64x1 => 0xB
  | .u64x1 => 0xC
  | .f32x2 => 0xD

/-- The opcode of a command (R55). -/
def Instr.opcode : Instr → BitVec 8
  | .view _ _  => 0x01
  | .sel       => 0x10
  | .hsumF32   => 0x20
  | .hmaxU8    => 0x21
  | .hmaxS16   => 0x22
  | .rshiftF32 => 0x30
  | .lshiftF32 => 0x31
  | .logF32    => 0x40
  | .expF32    => 0x41

/-- `VFROM` of a command's word (R50, R52). -/
def Instr.vfrom : Instr → BitVec 4
  | .view f _ => f.code
  | .sel | .hsumF32 | .hmaxU8 | .hmaxS16 | .rshiftF32 | .lshiftF32 | .logF32 | .expF32 => 0

/-- `VTO` of a command's word (R50, R52). -/
def Instr.vto : Instr → BitVec 4
  | .view _ t => t.code
  | .sel | .hsumF32 | .hmaxU8 | .hmaxS16 | .rshiftF32 | .lshiftF32 | .logF32 | .expF32 => 0

/-- The command word of an instruction: `RSV`, `VTO`, `VFROM`, `OP` from the high bits down (R50, R66). -/
def encode (i : Instr) : W32 := 0#16 ++ i.vto ++ i.vfrom ++ i.opcode

/-- The instruction the decoder reads from a table word of `nbits` bits, bit 0 the least significant; the bits above
`nbits` are 0. A command word is a value of 32 bits on a port, so nothing longer is one (R61). -/
def decodeTableWord (nbits w : Nat) : Option Instr :=
  if w % 2 ^ nbits < 2 ^ 32 then
    match decode (BitVec.ofNat 32 (w % 2 ^ nbits)) with
    | .ok i => some i
    | .error _ => none
  else none

end Sys2Proof
end

