-- ==== Sys2Proof/Machine/Operands.lean ====
section
/-! DEFINITION. Lanes and bytes of a value (00_scope.md R9, R10; 20_memory.md R42, R44), the lane readings of the views
(40_view.md R70, R71) and which operand bits each command reads (10_state.md R22). -/

namespace Sys2Proof.Machine

/-- `lane_w(v, k)` (00_scope.md R9): lane 0 is the least significant. -/
def lane {n : Nat} (w : Nat) (v : BitVec n) (k : Nat) : BitVec w := v.extractLsb' (w * k) w

/-- `pack_32` of four lanes, lane 0 first (00_scope.md R9). -/
def pack32 (l0 l1 l2 l3 : W32) : V128 := l3 ++ l2 ++ l1 ++ l0

/-- Apply a lane operation to the four float32 lanes (00_scope.md R17). -/
def mapLanes32 (f : W32 → W32) (v : V128) : V128 :=
  pack32 (f (lane 32 v 0)) (f (lane 32 v 1)) (f (lane 32 v 2)) (f (lane 32 v 3))

/-- `{0^64, h}`: a V64 on a 128-bit port (40_view.md R75). -/
def ofHalf (h : V64) : V128 := h.setWidth 128

/-- The V64 that a 128-bit operand carries: `A[63:0]` (40_view.md R75). -/
def toHalf (v : V128) : V64 := v.setWidth 64

/-- The bytes of a value from the lowest address up, as a host stores it: little-endian (20_memory.md R44). -/
def storedBytes (v : V128) : List (BitVec 8) := (List.range 16).map (lane 8 v)

/-- The value of bytes read from the lowest address up (20_memory.md R44). -/
def ofStoredBytes : List (BitVec 8) → V128
  | [] => 0
  | b :: bs => b.setWidth 128 ||| (ofStoredBytes bs <<< 8)

/-- How a view reads the bits of a lane (40_view.md R70, R71). -/
inductive Reading where
  | signed | unsigned | float
deriving DecidableEq, Repr

/-- The lane width of a view (30_encoding.md R53). -/
def View.laneWidth : View → Nat
  | .i8x16 | .u8x16 | .i8x8 | .u8x8 => 8
  | .i16x8 | .u16x8 => 16
  | .i32x4 | .u32x4 | .f32x4 | .f32x2 => 32
  | .i64x2 | .u64x2 | .i64x1 | .u64x1 => 64

/-- The storage width of a view: `VLEN` or `HLEN` (00_scope.md R6, 30_encoding.md R53). -/
def View.storageWidth (p : View) : Nat := if p.isHalf then 64 else 128

/-- The number of lanes of a view (00_scope.md R9, 30_encoding.md R53). -/
def View.laneCount (p : View) : Nat := View.storageWidth p / View.laneWidth p

/-- The lane reading of a view (30_encoding.md R53). -/
def View.reading : View → Reading
  | .i8x16 | .i16x8 | .i32x4 | .i64x2 | .i8x8 | .i64x1 => .signed
  | .u8x16 | .u16x8 | .u32x4 | .u64x2 | .u8x8 | .u64x1 => .unsigned
  | .f32x4 | .f32x2 => .float

/-- The bits of each port that a command reads (10_state.md R22; 40_view.md R75 for a V64 view). -/
structure Reads where
  a : V128
  b : V128
  m : V128
deriving DecidableEq, Repr

/-- All bits of a port. -/
def allBits : V128 := BitVec.allOnes 128

/-- Bits `[63:0]` of a port, what a V64 operand occupies (40_view.md R75). -/
def lowHalfBits : V128 := ofHalf (BitVec.allOnes 64)

/-- Lane 0 of a port, what a shift reads of `B` (43_shift.md R95, R96). -/
def lane0Bits : V128 := (BitVec.allOnes 32).setWidth 128

/-- The table of 10_state.md R22. -/
def Instr.reads : Instr → Reads
  | .view f _ => ⟨if f.isHalf then lowHalfBits else allBits, 0, 0⟩
  | .sel => ⟨allBits, allBits, allBits⟩
  | .hsumF32 => ⟨allBits, 0, 0⟩
  | .hmaxU8 => ⟨allBits, 0, 0⟩
  | .hmaxS16 => ⟨allBits, 0, 0⟩
  | .rshiftF32 => ⟨allBits, lane0Bits, 0⟩
  | .lshiftF32 => ⟨allBits, lane0Bits, 0⟩
  | .logF32 => ⟨allBits, 0, 0⟩
  | .expF32 => ⟨allBits, 0, 0⟩

/-- The bits a command word reads: none if it is illegal (10_state.md R22). -/
def readsOfWord (w : W32) : Reads :=
  match decode w with
  | .ok i => Instr.reads i
  | .error _ => ⟨0, 0, 0⟩

/-- Two ports carry the same operands as far as the reads go. -/
def sameOperands (r : Reads) (p q : Port) : Bool :=
  (p.cmdA &&& r.a == q.cmdA &&& r.a) && (p.cmdB &&& r.b == q.cmdB &&& r.b) && (p.cmdM &&& r.m == q.cmdM &&& r.m)

end Sys2Proof.Machine
end

