-- ==== Sys2Proof/Machine/Float32.lean ====
section
/-! DEFINITION. The float32 readings and arithmetic primitives of 00_scope.md R11, R12: the exact result, rounded once
to nearest with ties to even, with gradual underflow. Finite values are counted in UNITS of `2^-149`, the smallest
subnormal, so that every finite float32 is a whole number of units and exact sums are sums of integers. -/

namespace Sys2Proof.Machine

/-- What a 32-bit lane stands for (00_scope.md R11). -/
inductive FloatVal where
  | nan
  | inf (neg : Bool)
  | finite (neg : Bool) (units : Nat)
deriving DecidableEq, Repr

/-- The magnitude of a finite lane in units of `2^-149` (00_scope.md R11). -/
def magUnits (b : W32) : Nat :=
  if expField b = 0 then fracField b else (2 ^ 23 + fracField b) * 2 ^ (expField b - 1)

/-- `f32(b)` (00_scope.md R11). -/
def floatVal (b : W32) : FloatVal :=
  if expField b = 0xFF then (if fracField b = 0 then .inf (signBit b) else .nan)
  else .finite (signBit b) (magUnits b)

/-- A signed number of units. -/
def signedOf (neg : Bool) (m : Nat) : Int := if neg then -(m : Int) else (m : Int)

/-- The value of a finite lane in units of `2^-149`. -/
def signedUnits (b : W32) : Int := signedOf (signBit b) (magUnits b)

/-- The lane of a sign and the 31 bits below it. -/
def withSign (neg : Bool) (mag : Nat) : W32 := BitVec.ofNat 32 ((if neg then 2 ^ 31 else 0) + mag)

/-- `+inf` or `-inf` (00_scope.md R11). -/
def infBits (neg : Bool) : W32 := withSign neg 0x7F800000

/-- `m / 2^d` rounded to the nearest integer, ties to even. -/
def divPow2RNE (m d : Nat) : Nat :=
  let q := m / 2 ^ d
  let r := m % 2 ^ d
  if 2 ^ d < 2 * r ∨ (2 * r = 2 ^ d ∧ q % 2 = 1) then q + 1 else q

/-- How many low bits of `m` the rounding of `m / 2^k` units drops: the `k` bits below one unit, or what does not fit
24 significant bits, whichever is more. -/
def dropBits (m k : Nat) : Nat := max k (m.log2 - 23)

/-- The magnitude `m / 2^k` units rounded once to binary32 (00_scope.md R12): round to nearest, ties to even, subnormal
results delivered, overflow to infinity. With `j` bits dropped beyond `k`, the biased encoding of `q * 2^j` units is
`j * 2^23 + q`, also for a subnormal (`j = 0`) and when rounding has carried into the next binade. -/
def roundUnits (neg : Bool) (m k : Nat) : W32 :=
  let d := dropBits m k
  let mag := (d - k) * 2 ^ 23 + divPow2RNE m d
  if mag < 0x7F800000 then withSign neg mag else infBits neg

/-- `fadd32(x, y)`, with the configured `NAN_OUT` as `nan` (00_scope.md R12). -/
def fadd32 (nan : W32) (x y : W32) : W32 :=
  match floatVal x, floatVal y with
  | .nan, _ => nan
  | .inf _, .nan => nan
  | .inf a, .inf b => if a = b then infBits a else nan
  | .inf a, .finite _ _ => infBits a
  | .finite _ _, .nan => nan
  | .finite _ _, .inf b => infBits b
  | .finite a m, .finite b n =>
    let t := signedOf a m + signedOf b n
    if t = 0 then withSign (a && b) 0 else roundUnits (t < 0) t.natAbs 0

/-- The lane with its sign bit inverted. -/
def fneg32 (x : W32) : W32 := x ^^^ 0x80000000#32

/-- `fsub32(x, y)`: IEEE subtraction is addition of the negated operand (00_scope.md R12). -/
def fsub32 (nan : W32) (x y : W32) : W32 := fadd32 nan x (fneg32 y)

/-- `fmul32(x, y)` (00_scope.md R12). The exact product of `m` and `n` units is `m * n / 2^149` units. -/
def fmul32 (nan : W32) (x y : W32) : W32 :=
  match floatVal x, floatVal y with
  | .nan, _ => nan
  | .inf _, .nan => nan
  | .inf a, .inf b => infBits (a ^^ b)
  | .inf a, .finite b n => if n = 0 then nan else infBits (a ^^ b)
  | .finite _ _, .nan => nan
  | .finite a m, .inf b => if m = 0 then nan else infBits (a ^^ b)
  | .finite a m, .finite b n => roundUnits (a ^^ b) (m * n) 149

/-- Sign-magnitude order of the lanes that are not NaN: `-0` and `+0` are equal, the infinities are the ends. -/
def orderKey (b : W32) : Int := signedOf (signBit b) (b.extractLsb' 0 31).toNat

/-- `flt32(x, y)`: the ordered less-than, false on a NaN (00_scope.md R12). -/
def flt32 (x y : W32) : Bool := !isNaN x && !isNaN y && decide (orderKey x < orderKey y)

/-- `i2f32(n)`; exact for `|n| <= 2^24` (00_scope.md R12). -/
def i2f32 (n : Int) : W32 := roundUnits (n < 0) (n.natAbs * 2 ^ 149) 0

/-- `floor32(x)`: the largest integer not above a finite `x` (00_scope.md R12). -/
def floor32 (x : W32) : Int := signedUnits x / 2 ^ 149

/-- The value of a lane under a reading (40_view.md R70, R71; 00_scope.md R10, R11). -/
inductive LaneValue where
  | int (z : Int)
  | float (f : FloatVal)
deriving DecidableEq, Repr

/-- The reading of a lane of width `w`. -/
def readLane {w : Nat} (r : Reading) (b : BitVec w) : LaneValue :=
  match r with
  | .signed => .int b.toInt
  | .unsigned => .int b.toNat
  | .float => .float (floatVal (b.setWidth 32))

/-- The value of lane `k` of a 128-bit port value under a view (40_view.md R70, R71). A V64 view sees `v[63:0]` alone
(R75). An index past the view's last lane names no lane (00_scope.md R9) and has no value: DESIGN CHOICE, safe, log
entry 15. -/
def View.laneValue (p : View) (v : V128) (k : Nat) : Option LaneValue :=
  if k < View.laneCount p then
    some (readLane (View.reading p)
      (if p.isHalf then lane (View.laneWidth p) (toHalf v) k else lane (View.laneWidth p) v k))
  else none

end Sys2Proof.Machine
end

