-- ==== Sys2Proof/Machine/Accuracy.lean ====
section
/-! DEFINITION. The accuracy contract of 44_log.md R103 and 45_exp.md R119 (00_scope.md R15, R18) as a computable test of
one answer: rational bounds of the logarithm from the series of `ln((1+z)/(1-z))`. A free `LOGF` or `EXPF` is held
to this test (log entry 11). -/

namespace Sys2Proof.Machine

/-- `2^k` as a rational. -/
def pow2 (k : Int) : Rat := if 0 ≤ k then ((2 ^ k.toNat : Nat) : Rat) else 1 / ((2 ^ (-k).toNat : Nat) : Rat)

/-- `floor(log2 q)` of a positive rational. -/
def floorLog2 (q : Rat) : Int :=
  let k : Int := (q.num.natAbs.log2 : Int) - (q.den.log2 : Int)
  if pow2 k ≤ q then k else k - 1

/-- `z + z^3/3 + z^5/5 + ...`, the first `n` terms: `1/2 * ln((1+z)/(1-z))` from below when `0 <= z < 1`. -/
def halfLogSum (z : Rat) : Nat → Rat
  | 0 => 0
  | n + 1 => halfLogSum z n + z ^ (2 * n + 1) / ((2 * n + 1 : Nat) : Rat)

/-- How many terms of the series are taken; the bounds are then less than `2^-200` apart. -/
def seriesTerms : Nat := 64

/-- A lower and an upper bound of `ln((1+z)/(1-z))` for `0 <= z < 1`. -/
def logRatioLower (z : Rat) : Rat := 2 * halfLogSum z seriesTerms
@[inherit_doc logRatioLower] def logRatioUpper (z : Rat) : Rat :=
  2 * (halfLogSum z seriesTerms + z ^ (2 * seriesTerms + 1) / (1 - z ^ 2))

/-- Bounds of `ln 2 = ln((1 + 1/3)/(1 - 1/3))`. -/
def ln2Lower : Rat := logRatioLower (1 / 3)
@[inherit_doc ln2Lower] def ln2Upper : Rat := logRatioUpper (1 / 3)

/-- For a positive `q = 2^k * t` with `t` in `[1, 2)`: the `z` with `t = (1+z)/(1-z)`. -/
def reducedRatio (q : Rat) : Rat :=
  let t := q / pow2 (floorLog2 q)
  (t - 1) / (t + 1)

/-- A lower and an upper bound of `ln q` for a positive `q`. -/
def lnLower (q : Rat) : Rat :=
  let k := floorLog2 q
  (k : Rat) * (if 0 ≤ k then ln2Lower else ln2Upper) + logRatioLower (reducedRatio q)
@[inherit_doc lnLower] def lnUpper (q : Rat) : Rat :=
  let k := floorLog2 q
  (k : Rat) * (if 0 ≤ k then ln2Upper else ln2Lower) + logRatioUpper (reducedRatio q)

/-- The value of a finite lane as a rational (00_scope.md R11). -/
def ratOf (b : W32) : Rat := (signedUnits b : Rat) / ((2 ^ 149 : Nat) : Rat)

/-- `ulp` of a value of binary exponent `k` (00_scope.md R15). -/
def ulpAt (k : Int) : Rat := pow2 (max k (-126) - 23)

/-- The answer `y` is finite and within `n` ULP of `ln(f32(x))`, for a positive finite `x` other than 1 (44_log.md
R103). -/
def logWithin (n : Nat) (x y : W32) : Bool :=
  let lo := lnLower (ratOf x)
  let hi := lnUpper (ratOf x)
  let near := if 0 < lo then lo else -hi
  let u := ulpAt (floorLog2 near)
  isFinite y && decide (0 < near) && decide (ratOf y - n * u ≤ lo) && decide (hi ≤ ratOf y + n * u)

/-- The binary exponent of `exp(x)`: the largest `k` with `k * ln 2 <= x`. -/
def expExponent (x : Rat) : Int := if 0 ≤ x then (x / ln2Upper).floor else (x / ln2Lower).floor

/-- The answer `y` is finite and within `n` ULP of `exp(f32(x))` (45_exp.md R119): `y - n*u <= exp(x) <= y + n*u`, put
as bounds of `x` by logarithms. -/
def expWithin (n : Nat) (x y : W32) : Bool :=
  let q := ratOf x
  let u := ulpAt (expExponent q)
  let a := ratOf y - n * u
  let b := ratOf y + n * u
  isFinite y && (decide (a ≤ 0) || decide (lnUpper a ≤ q)) && decide (0 < b) && decide (q ≤ lnLower b)

end Sys2Proof.Machine
end

