-- ==== Sys2Proof/Machine/Ops.lean ====
section
/-! DEFINITION. The shared operations on the state: answering a command (10_state.md R31, R32), the illegal-command
response (60_exceptions.md R131), the handshake conditions and the parts of one clock edge (70_reset_and_hazards.md
R145 to R152). -/

namespace Sys2Proof.Machine

/-- Queue the response of the command accepted at this edge, to be taken `lat` edges later at the earliest
(70_reset_and_hazards.md R148, R155). Every meaning is one call of this operation. -/
def respond (lat : Nat) (r : Response) (s : State) : State :=
  { s with queue := s.queue ++ [⟨r, lat⟩] }

/-- The response of a legal command: its result, `ILL = 0` (10_state.md R24). -/
def legal (data : V128) : Response := ⟨data, false⟩

/-- The response of an illegal command: `R = 0^128`, `ILL = 1` (60_exceptions.md R131). -/
def illegalResponse : Response := ⟨0, true⟩

/-- Taking the one exception of the block (60_exceptions.md R131, R136): the illegal-command response is queued in
order, and nothing else happens. There is no return from it (R137). -/
def takeIllegal (s : State) : State := respond s.cfg.lat.illegal illegalResponse s

/-- `|Q| < INFLIGHT_MAX` (10_state.md R31, R32), for an `INFLIGHT_MAX` of at least 1. -/
def hasRoom (s : State) : Bool := decide (s.queue.length < s.cfg.inflightMax)

/-- The block chooses in this cycle to hold `cmd_ready` at 0 although it has room, within its bound
(70_reset_and_hazards.md R149). -/
def holdsReady (s : State) : Bool := s.hold && decide (s.stalled < s.cfg.readyHoldMax)

/-- Out of reset: `rst` is 0 and `inReset` has fallen (10_state.md R32, 70_reset_and_hazards.md R145). -/
def running (s : State) : Bool := !s.port.rst && !s.inReset

/-- The output `cmd_ready` (70_reset_and_hazards.md R149). -/
def cmdReady (s : State) : Bool := running s && hasRoom s && !holdsReady s

/-- The command on the port is accepted at this edge (70_reset_and_hazards.md R148). -/
def cmdAccepted (s : State) : Bool := s.port.cmdValid && cmdReady s

/-- The entry that may be taken in this cycle: the oldest, once its latency has passed (70_reset_and_hazards.md R150). -/
def offered (s : State) : Option Entry :=
  match s.queue with
  | [] => none
  | e :: _ => if running s && e.wait == 0 then some e else none

/-- The output `rsp_valid` (70_reset_and_hazards.md R150). -/
def rspValid (s : State) : Bool := (offered s).isSome

/-- The outputs `rsp_data` and `rsp_illegal`: the head of the queue while `rsp_valid = 1`, and a free value otherwise
(70_reset_and_hazards.md R150, 93_implementation_defined.md U1). -/
def rspOut (s : State) : Response :=
  match offered s with
  | some e => e.resp
  | none => ⟨Config.freeIdleData s.tick, Config.freeIdleIllegal s.tick⟩

/-- The host takes the offered response at this edge (70_reset_and_hazards.md R150). -/
def rspTaken (s : State) : Bool := rspValid s && s.port.rspReady

/-- One edge passes for an entry of the queue (70_reset_and_hazards.md R155). -/
def Entry.age (e : Entry) : Entry := { e with wait := e.wait - 1 }

/-- What an edge that samples `rst = 0` does beside accepting: a taken response leaves the queue for the host, the
remaining latencies go down by one, and the block's holding of `cmd_ready` is counted. `before` is the state the
handshakes were decided in, `after` the same state with the accepted command's response queued (70_reset_and_hazards.md
R150, R152: a response is never taken at the edge that accepts its command). -/
def closeEdge (before after : State) : State :=
  { after with
    queue := (if rspTaken before then after.queue.tail else after.queue).map Entry.age
    received := if rspTaken before then after.received ++ [rspOut before] else after.received
    stalled := if running before && hasRoom before && holdsReady before then after.stalled + 1 else 0 }

/-- What an edge that samples `rst = 1` does: the queue is cleared, its responses never delivered
(70_reset_and_hazards.md R145, 10_state.md R34). -/
def resetEdge (s : State) : State :=
  { s with queue := [], inReset := true, resetHeld := s.resetHeld + 1, stalled := 0 }

/-- What the host drives in the next cycle: the next entry of the script. Once the script is over the host holds its
signals, but withdraws a command that has been accepted (log entry 2). -/
def nextCycle (accepted : Bool) (s : State) : Cycle :=
  match s.script with
  | c :: _ => c
  | [] => ⟨{ s.port with cmdValid := s.port.cmdValid && !accepted }, false⟩

/-- The host keeps an offered command on the port: `cmd_valid`, the word and the operands it reads
(70_reset_and_hazards.md R148). -/
def keepsOffer (p q : Port) : Bool :=
  q.cmdValid && (q.cmdWord == p.cmdWord) && sameOperands (readsOfWord p.cmdWord) p q

/-- H1: a command offered and not accepted is dropped or changed, with no reset on either side of the edge
(93_implementation_defined.md; 70_reset_and_hazards.md R148, R157). -/
def breaksOffer (accepted : Bool) (p q : Port) : Bool :=
  p.cmdValid && !accepted && !p.rst && !q.rst && !keepsOffer p q

/-- H2: `rst` is released before it has been held for `RESET_CYCLES` edges (93_implementation_defined.md;
70_reset_and_hazards.md R145). -/
def breaksReset (s : State) (q : Port) : Bool :=
  s.port.rst && !q.rst && decide (s.resetHeld < s.cfg.resetCycles)

/-- The state at the start of cycle `c`: the host drives its new signals, and `inReset` falls when `rst` is released
(10_state.md R32). -/
def enterCycle (c : Cycle) (s : State) : State :=
  { s with
    port := c.port
    hold := c.hold
    script := s.script.tail
    inReset := s.inReset && c.port.rst
    resetHeld := if c.port.rst then s.resetHeld else 0
    tick := s.tick + 1 }

/-- The host goes on to its next cycle; what the spec puts outside itself is refused (93_implementation_defined.md H1,
H2). -/
def driveNext (accepted : Bool) (s : State) : Host.Outcome State Fault Refusal :=
  let c := nextCycle accepted s
  if breaksOffer accepted s.port c.port then .refused .changedOffer
  else if breaksReset s c.port then .refused .shortReset
  else .next (enterCycle c s)

/-- A state like `s` in which the command word `w` is offered and will be accepted at the next edge: no reset, room in
the queue, no holding back (70_reset_and_hazards.md R148, R149). The operands stay as they are. -/
def offerWord (w : W32) (s : State) : State :=
  { s with
    queue := s.queue.take (s.cfg.inflightMax - 1)
    inReset := false
    hold := false
    resetHeld := 0
    port := { s.port with rst := false, cmdValid := true, cmdWord := w } }

end Sys2Proof.Machine
end

