-- ==== Sys2Proof/Machine/Exp.lean ====
section
/-! DEFINITION. `EXP.F32` (45_exp.md R115 to R122): the configured per-lane `EXPF`, the reference algorithm or a free
function within the contract. -/

namespace Sys2Proof.Machine

/-- The polynomial part of `EXPF_REF`: `1 + r + r^2 * E(r)`, `E0` to `E5` by Horner's rule (45_exp.md R121, R122). -/
def expPoly (nan r : W32) : W32 :=
  let fma y c := fadd32 nan (fmul32 nan y r) c
  let z := fmul32 nan r r
  let y := 0x39506967#32
  let y := fma y 0x3AB743CE#32
  let y := fma y 0x3C088908#32
  let y := fma y 0x3D2AA9C1#32
  let y := fma y 0x3E2AAAAA#32
  let y := fma y 0x3F000000#32
  let y := fmul32 nan y z
  let y := fadd32 nan y r
  fadd32 nan y 0x3F800000#32

/-- The `n` of the range reduction: `floor(fl(fl(x * LOG2EF) + 1/2))` (45_exp.md R121). -/
def expN (nan x : W32) : Int := floor32 (fadd32 nan (fmul32 nan x 0x3FB8AA3B#32) 0x3F000000#32)

/-- The reduced argument `r = x - n*C1 - n*C2` (45_exp.md R121). -/
def expReduced (nan x : W32) (n : Int) : W32 :=
  let nf := i2f32 n
  fsub32 nan (fsub32 nan x (fmul32 nan nf 0x3F318000#32)) (fmul32 nan nf 0xB95E8083#32)

/-- `{0b0, trunc_8(n + 127), 0^23}`: the lane of `2^n` (45_exp.md R121). -/
def pow2Bits (n : Int) : W32 := 0#1 ++ BitVec.ofInt 8 (n + 127) ++ 0#23

/-- The scale by `2^n`, in two factors for `n = 128` (45_exp.md R121). -/
def expScale (nan y : W32) (n : Int) : W32 :=
  if n = 128 then fmul32 nan (fmul32 nan y 0x40000000#32) 0x7F000000#32
  else fmul32 nan y (pow2Bits n)

/-- `EXPF_REF` (45_exp.md R121). -/
def expfRef (nan x : W32) : W32 :=
  if isNaN x then nan
  else if !flt32 x Config.expHi then 0x7F800000#32
  else if flt32 x Config.expLo then 0x00000000#32
  else
    let n := expN nan x
    expScale nan (expPoly nan (expReduced nan x n)) n

/-- An `EXPF` that answers `y` on `x`, held to the contract: the special inputs of 45_exp.md R116, the saturation of R117
and R118, and in range an answer within `EXP_MAX_ULP` (R119) that is no subnormal (R118: `EXP.F32` never returns one); an
answer outside the contract is no implementation's, and `EXPF_REF`'s stands in its place (log entry 11). -/
def expfFree (nan : W32) (maxUlp : Nat) (x y : W32) : W32 :=
  if isNaN x then nan
  else if !flt32 x Config.expHi then 0x7F800000#32
  else if flt32 x Config.expLo then 0x00000000#32
  else if isZero x then 0x3F800000#32
  else if expWithin maxUlp x y && !isSubnormal y then y
  else expfRef nan x

/-- `EXPF` of a configuration (45_exp.md R120). -/
def expf (c : Config) (x : W32) : W32 :=
  match c.expImpl with
  | .reference => expfRef c.nanOut x
  | .free id => expfFree c.nanOut c.expMaxUlp x (Config.freeExp id x)

/-- The result of `EXP.F32` (45_exp.md R115). -/
def expResult (c : Config) (a : V128) : V128 := mapLanes32 (expf c) a

/-- `EXP.F32` (45_exp.md R115). -/
def execExpF32 (s : State) : Host.Outcome State Fault Refusal :=
  .next (respond s.cfg.lat.exp (legal (expResult s.cfg s.port.cmdA)) s)

end Sys2Proof.Machine
end

