-- ==== Sys2Proof/Machine/Log.lean ====
section
/-! DEFINITION. `LOG.F32` (44_log.md R100 to R107): the configured per-lane `LOGF`, the reference algorithm or a free
function within the contract. -/

namespace Sys2Proof.Machine

/-- The polynomial of `LOGF_REF`, `P0` to `P8` by Horner's rule (44_log.md R106, R107). -/
def logPoly (nan t : W32) : W32 :=
  let fma y c := fadd32 nan (fmul32 nan y t) c
  let y := 0x3D9021BB#32
  let y := fma y 0xBDEBD1B8#32
  let y := fma y 0x3DEF251A#32
  let y := fma y 0xBDFE5D4F#32
  let y := fma y 0x3E11E9BF#32
  let y := fma y 0xBE2AAE50#32
  let y := fma y 0x3E4CCEAC#32
  let y := fma y 0xBE7FFFFC#32
  fma y 0x3EAAAAAA#32

/-- The recombination of `LOGF_REF` after the reduction to `e` and `t`: from `z = t*t` to the result, with `Q1`, `HALF`
and `Q2` (44_log.md R106, R107). -/
def logCombine (nan e t : W32) : W32 :=
  let z := fmul32 nan t t
  let y := logPoly nan t
  let y := fmul32 nan y t
  let y := fmul32 nan y z
  let y := fadd32 nan y (fmul32 nan e 0xB95E8083#32)
  let y := fsub32 nan y (fmul32 nan z 0x3F000000#32)
  let r := fadd32 nan t y
  fadd32 nan r (fmul32 nan e 0x3F318000#32)

/-- The reduction of `LOGF_REF`: `x1` is a positive normal lane and `adj` what its exponent is corrected by; below
`SQRTHF` one factor of 2 moves into the mantissa (44_log.md R106, R107). -/
def logReduce (nan x1 : W32) (adj : Int) : W32 :=
  let ei : Int := (expField x1 : Int) - 126 + adj
  let m := 0x3F000000#32 ||| (x1 &&& 0x007FFFFF#32)
  let e := i2f32 ei
  if flt32 m 0x3F3504F3#32 then
    logCombine nan (fsub32 nan e 0x3F800000#32) (fadd32 nan (fsub32 nan m 0x3F800000#32) m)
  else logCombine nan e (fsub32 nan m 0x3F800000#32)

/-- `LOGF_REF` (44_log.md R106); a subnormal is first multiplied by `TWO23`, exactly. -/
def logfRef (nan x : W32) : W32 :=
  if isNaN x then nan
  else if isZero x then 0xFF800000#32
  else if signBit x then nan
  else if x = 0x7F800000#32 then 0x7F800000#32
  else if isSubnormal x then logReduce nan (fmul32 nan x 0x4B000000#32) (-23)
  else logReduce nan x 0

/-- A `LOGF` that answers `y` on `x`, held to the contract: the special inputs of 44_log.md R101, the exact zero of
R102, any value on a positive subnormal (R104), and on a positive normal an answer within `LOG_MAX_ULP` (R103); an
answer outside the contract is no implementation's, and `LOGF_REF`'s stands in its place (log entry 11). -/
def logfFree (nan : W32) (maxUlp : Nat) (x y : W32) : W32 :=
  if isNaN x then nan
  else if isZero x then 0xFF800000#32
  else if signBit x then nan
  else if x = 0x7F800000#32 then 0x7F800000#32
  else if x = 0x3F800000#32 then 0x00000000#32
  else if isSubnormal x then y
  else if logWithin maxUlp x y then y
  else logfRef nan x

/-- `LOGF` of a configuration (44_log.md R105). -/
def logf (c : Config) (x : W32) : W32 :=
  match c.logImpl with
  | .reference => logfRef c.nanOut x
  | .free id => logfFree c.nanOut c.logMaxUlp x (Config.freeLog id x)

/-- The result of `LOG.F32` (44_log.md R100). -/
def logResult (c : Config) (a : V128) : V128 := mapLanes32 (logf c) a

/-- `LOG.F32` (44_log.md R100). -/
def execLogF32 (s : State) : Host.Outcome State Fault Refusal :=
  .next (respond s.cfg.lat.log (legal (logResult s.cfg s.port.cmdA)) s)

end Sys2Proof.Machine
end

