-- ==== Sys2Proof/Machine/Reduction.lean ====
section
/-! DEFINITION. `HSUM.F32`, `HMAX.U8`, `HMAX.S16` (42_reduction.md R85 to R87), results placed as 30_encoding.md R58
says: in the low bits, zeros above. -/

namespace Sys2Proof.Machine

/-- The tree sum of the four float32 lanes (42_reduction.md R85). -/
def hsumLane (nan : W32) (a : V128) : W32 :=
  fadd32 nan (fadd32 nan (lane 32 a 0) (lane 32 a 1)) (fadd32 nan (lane 32 a 2) (lane 32 a 3))

/-- The result of `HSUM.F32`: `{0^96, s}`. -/
def hsumResult (nan : W32) (a : V128) : V128 := (hsumLane nan a).setWidth 128

/-- The largest of `x 0`, ..., `x n`. -/
def maxUpTo (x : Nat → Int) : Nat → Int
  | 0 => x 0
  | n + 1 => max (maxUpTo x n) (x (n + 1))

/-- The result of `HMAX.U8`: the largest `uval` of the 16 bytes, `{0^120, trunc_8(m)}` (42_reduction.md R86). -/
def hmaxU8Result (a : V128) : V128 :=
  (BitVec.ofInt 8 (maxUpTo (fun k => ((lane 8 a k).toNat : Int)) 15)).setWidth 128

/-- The result of `HMAX.S16`: the largest `sval` of the 8 lanes, `{0^112, trunc_16(m)}` (42_reduction.md R87). -/
def hmaxS16Result (a : V128) : V128 :=
  (BitVec.ofInt 16 (maxUpTo (fun k => (lane 16 a k).toInt) 7)).setWidth 128

/-- `HSUM.F32` (42_reduction.md R85). -/
def execHsumF32 (s : State) : Host.Outcome State Fault Refusal :=
  .next (respond s.cfg.lat.hsum (legal (hsumResult s.cfg.nanOut s.port.cmdA)) s)

/-- `HMAX.U8` (42_reduction.md R86). -/
def execHmaxU8 (s : State) : Host.Outcome State Fault Refusal :=
  .next (respond s.cfg.lat.hmaxU8 (legal (hmaxU8Result s.port.cmdA)) s)

/-- `HMAX.S16` (42_reduction.md R87). -/
def execHmaxS16 (s : State) : Host.Outcome State Fault Refusal :=
  .next (respond s.cfg.lat.hmaxS16 (legal (hmaxS16Result s.port.cmdA)) s)

end Sys2Proof.Machine
end

