-- ==== Sys2Proof/Machine/Select.lean ====
section
/-! DEFINITION. `SEL` (41_select.md R80). -/

namespace Sys2Proof.Machine

/-- `(A & ~M) | (B & M)` (41_select.md R80). -/
def selResult (a b m : V128) : V128 := (a &&& ~~~m) ||| (b &&& m)

/-- `SEL` (41_select.md R80). -/
def execSel (s : State) : Host.Outcome State Fault Refusal :=
  .next (respond s.cfg.lat.sel (legal (selResult s.port.cmdA s.port.cmdB s.port.cmdM)) s)

end Sys2Proof.Machine
end

