-- ==== Sys2Proof/Machine/Shift.lean ====
section
/-! DEFINITION. `RSHIFT.F32` and `LSHIFT.F32` (43_shift.md R95 to R97): lanes move as bits. -/

namespace Sys2Proof.Machine

/-- The result of `RSHIFT.F32` (43_shift.md R95). -/
def rshiftResult (a b : V128) : V128 := pack32 (lane 32 b 0) (lane 32 a 0) (lane 32 a 1) (lane 32 a 2)

/-- The result of `LSHIFT.F32` (43_shift.md R96). -/
def lshiftResult (a b : V128) : V128 := pack32 (lane 32 a 1) (lane 32 a 2) (lane 32 a 3) (lane 32 b 0)

/-- `RSHIFT.F32` (43_shift.md R95). -/
def execRshiftF32 (s : State) : Host.Outcome State Fault Refusal :=
  .next (respond s.cfg.lat.shift (legal (rshiftResult s.port.cmdA s.port.cmdB)) s)

/-- `LSHIFT.F32` (43_shift.md R96). -/
def execLshiftF32 (s : State) : Host.Outcome State Fault Refusal :=
  .next (respond s.cfg.lat.shift (legal (lshiftResult s.port.cmdA s.port.cmdB)) s)

end Sys2Proof.Machine
end

