-- ==== Sys2Proof/Machine/Views.lean ====
section
/-! DEFINITION. `VIEW` (40_view.md R74, R75). -/

namespace Sys2Proof.Machine

/-- The result of `VIEW f->t`: the bits as they are for V128 views, `{0^64, A[63:0]}` for V64 views (40_view.md R74). -/
def viewResult (f : View) (a : V128) : V128 := if f.isHalf then ofHalf (toHalf a) else a

/-- `VIEW` (40_view.md R74). The target view decides legality only. -/
def execView (f _t : View) (s : State) : Host.Outcome State Fault Refusal :=
  .next (respond s.cfg.lat.view (legal (viewResult f s.port.cmdA)) s)

end Sys2Proof.Machine
end

