-- ==== Sys2Proof/Machine/Dispatch.lean ====
section
/-! DEFINITION. The dispatch of 30_encoding.md R60: one arm per command. -/

namespace Sys2Proof.Machine

def exec (i : Instr) (s : State) : Host.Outcome State Fault Refusal :=
  match i with
  | .view f t => Sys2Proof.Machine.execView f t s
  | .sel => Sys2Proof.Machine.execSel s
  | .hsumF32 => Sys2Proof.Machine.execHsumF32 s
  | .hmaxU8 => Sys2Proof.Machine.execHmaxU8 s
  | .hmaxS16 => Sys2Proof.Machine.execHmaxS16 s
  | .rshiftF32 => Sys2Proof.Machine.execRshiftF32 s
  | .lshiftF32 => Sys2Proof.Machine.execLshiftF32 s
  | .logF32 => Sys2Proof.Machine.execLogF32 s
  | .expF32 => Sys2Proof.Machine.execExpF32 s

end Sys2Proof.Machine
end

