-- ==== Sys2Proof/Machine/Step.lean ====
section
/-! DEFINITION. One step: one rising edge of `clk` (10_state.md R25, 70_reset_and_hazards.md R145, R148 to R152). -/

namespace Sys2Proof.Machine

/-- The command side of an edge out of reset: an accepted command is decoded and executed, an accepted word that the
decoder refuses gets the illegal-command response, and nothing happens when no command is accepted
(70_reset_and_hazards.md R148; 30_encoding.md R60). -/
def commandPhase (s : State) : Host.Outcome State Fault Refusal :=
  if cmdAccepted s then
    match decode s.port.cmdWord with
    | .ok i => exec i s
    | .error _ => .next (takeIllegal s)
  else .next s

/-- One rising edge of `clk`, and the host's next cycle after it. -/
def step (s : State) : Host.Outcome State Fault Refusal :=
  if s.port.rst then driveNext false (resetEdge s)
  else
    match commandPhase s with
    | .next t => driveNext (cmdAccepted s) (closeEdge s t)
    | .fault r => .fault r
    | .refused r => .refused r

/-- `s` with the table word `w` of `nbits` bits offered on the command port, so that the next step accepts and runs it
(log entry 7). -/
def State.withFetchWord (s : State) (nbits w : Nat) : State :=
  offerWord (BitVec.ofNat 32 (w % 2 ^ nbits)) s

end Sys2Proof.Machine
end

