-- ==== Sys2Proof/Machine/Untimed.lean ====
section
/-! DEFINITION. The untimed machine of 10_state.md R32 and the per-command function `exec(w, A, B, M)` of 30_encoding.md
R60 as a function of the word and the operands alone, beside the clocked machine of Step.lean. -/

namespace Sys2Proof.Machine

/-- The response of a legal command as a function of its operands (30_encoding.md R60, 10_state.md R20). -/
def responseOf (c : Config) (i : Instr) (a b m : V128) : Response :=
  match i with
  | .view f _ => legal (viewResult f a)
  | .sel => legal (selResult a b m)
  | .hsumF32 => legal (hsumResult c.nanOut a)
  | .hmaxU8 => legal (hmaxU8Result a)
  | .hmaxS16 => legal (hmaxS16Result a)
  | .rshiftF32 => legal (rshiftResult a b)
  | .lshiftF32 => legal (lshiftResult a b)
  | .logF32 => legal (logResult c a)
  | .expF32 => legal (expResult c a)

/-- `exec(w, A, B, M)` (30_encoding.md R60). -/
def execWord (c : Config) (w : W32) (a b m : V128) : Response :=
  match decode w with
  | .ok i => responseOf c i a b m
  | .error _ => illegalResponse

/-- The latency of a command (00_scope.md R7, 70_reset_and_hazards.md R156). -/
def latencyOf (l : Latencies) (i : Instr) : Nat :=
  match i with
  | .view _ _ => l.view
  | .sel => l.sel
  | .hsumF32 => l.hsum
  | .hmaxU8 => l.hmaxU8
  | .hmaxS16 => l.hmaxS16
  | .rshiftF32 => l.shift
  | .lshiftF32 => l.shift
  | .logF32 => l.log
  | .expF32 => l.exp

/-- The latency of a command word, legal or not (70_reset_and_hazards.md R155). -/
def latencyOfWord (l : Latencies) (w : W32) : Nat :=
  match decode w with
  | .ok i => latencyOf l i
  | .error _ => l.illegal

/-- `S = (Q, inReset)` (10_state.md R32). -/
structure Untimed where
  queue   : List Response
  inReset : Bool
deriving DecidableEq, Repr

/-- The transitions of 10_state.md R32, and the fall of `inReset` when `rst` is released. -/
inductive Event where
  | accept (w : W32) (a b m : V128)
  | respond (r : Response)
  | reset
  | release
deriving DecidableEq, Repr

/-- The transition relation of 10_state.md R32, guards and effects, for an implementation of configuration `c`. -/
inductive UntimedStep (c : Config) : Untimed → Event → Untimed → Prop where
  | accept (q : List Response) (w : W32) (a b m : V128) (room : q.length < c.inflightMax) :
      UntimedStep c ⟨q, false⟩ (.accept w a b m) ⟨q ++ [execWord c w a b m], false⟩
  | respond (r : Response) (q : List Response) :
      UntimedStep c ⟨r :: q, false⟩ (.respond r) ⟨q, false⟩
  | reset (q : List Response) (b : Bool) :
      UntimedStep c ⟨q, b⟩ .reset ⟨[], true⟩
  | release (q : List Response) :
      UntimedStep c ⟨q, true⟩ .release ⟨q, false⟩

/-- A run of the untimed machine over a list of transitions. -/
inductive UntimedRun (c : Config) : Untimed → List Event → Untimed → Prop where
  | done (u : Untimed) : UntimedRun c u [] u
  | step (u v w : Untimed) (e : Event) (es : List Event) (head : UntimedStep c u e v) (tail : UntimedRun c v es w) :
      UntimedRun c u (e :: es) w

/-- The untimed state behind a clocked one: latencies, ports and the model's own fields forgotten. -/
def untimed (s : State) : Untimed := ⟨s.queue.map Entry.resp, s.inReset⟩

/-- The transitions that one clock edge of `s`, followed by the cycle of `t`, performs, in order. -/
def edgeEvents (s t : State) : List Event :=
  if s.port.rst then .reset :: (if t.port.rst then [] else [.release])
  else (if cmdAccepted s then [.accept s.port.cmdWord s.port.cmdA s.port.cmdB s.port.cmdM] else []) ++
    (if rspTaken s then [.respond (rspOut s)] else [])

/-- The responses the host receives in a list of transitions (10_state.md R32). -/
def receivedIn (es : List Event) : List Response :=
  es.filterMap fun
    | .respond r => some r
    | .accept _ _ _ _ | .reset | .release => none

end Sys2Proof.Machine
end

