-- ==== Sys2Proof/Machine/Transcript.lean ====
section
/-! DEFINITION. The command syntax of 30_encoding.md R62, the pseudo-commands of R63 and the command lines of the host
transcripts of R64. Labels, branches and host expressions are the host's own and no part of the block (R64; 00_scope.md
glossary, Host). -/

namespace Sys2Proof.Machine

/-- The name of a view (30_encoding.md R53). -/
def View.name : View → String
  | .i8x16 => "I8X16"
  | .u8x16 => "U8X16"
  | .i16x8 => "I16X8"
  | .u16x8 => "U16X8"
  | .i32x4 => "I32X4"
  | .u32x4 => "U32X4"
  | .i64x2 => "I64X2"
  | .u64x2 => "U64X2"
  | .f32x4 => "F32X4"
  | .i8x8 => "I8X8"
  | .u8x8 => "U8X8"
  | .i64x1 => "I64X1"
  | .u64x1 => "U64X1"
  | .f32x2 => "F32X2"

/-- How a command is written (30_encoding.md R62). -/
def Instr.asm : Instr → String
  | .view f t => "VIEW " ++ View.name f ++ "->" ++ View.name t
  | .sel => "SEL"
  | .hsumF32 => "HSUM.F32"
  | .hmaxU8 => "HMAX.U8"
  | .hmaxS16 => "HMAX.S16"
  | .rshiftF32 => "RSHIFT.F32"
  | .lshiftF32 => "LSHIFT.F32"
  | .logF32 => "LOG.F32"
  | .expF32 => "EXP.F32"

/-- The pseudo-commands of 30_encoding.md R63. -/
def pass : Instr := .view .u8x16 .u8x16
@[inherit_doc pass] def low64 : Instr := .view .u8x8 .u8x8

/-- The fourteen views. -/
def allViews : List View :=
  [.i8x16, .u8x16, .i16x8, .u16x8, .i32x4, .u32x4, .i64x2, .u64x2, .f32x4, .i8x8, .u8x8, .i64x1, .u64x1, .f32x2]

/-- Every well-formed command. -/
def allInstrs : List Instr :=
  ((allViews.flatMap fun f => allViews.map fun t => Instr.view f t).filter Instr.wellFormed) ++
    [.sel, .hsumF32, .hmaxU8, .hmaxS16, .rshiftF32, .lshiftF32, .logF32, .expF32]

/-- The command word of a written command or pseudo-command (30_encoding.md R62, R63). -/
def assemble (text : String) : Option W32 :=
  if text = "PASS" then some (encode pass)
  else if text = "LOW64" then some (encode low64)
  else (allInstrs.find? fun i => Instr.asm i = text).map encode

/-- An operand of a command line: left out, a literal, or a host name (30_encoding.md R64). -/
inductive Operand where
  | omitted
  | literal (v : V128)
  | name (n : String)
deriving DecidableEq, Repr

/-- A command line: the word is presented with the operands, and the response data kept under `dest`
(30_encoding.md R64). -/
structure Line where
  dest : String
  word : W32
  a    : Operand
  b    : Operand
  m    : Operand
deriving DecidableEq, Repr

/-- The values the host has named, the latest first. -/
abbrev Env := List (String × V128)

/-- How a transcript ends: at its end; at a response with `ILL = 1`, which faults the host program (60_exceptions.md
R131); or at an operand that no delivered response and no host value has named (70_reset_and_hazards.md R154). -/
inductive HostRun where
  | halted (env : Env)
  | faulted (dest : String)
  | undelivered
deriving DecidableEq, Repr

/-- The value of an operand; one left out is driven to `0^128` (30_encoding.md R64). -/
def operandValue (env : Env) : Operand → Option V128
  | .omitted => some 0
  | .literal v => some v
  | .name n => env.lookup n

/-- Run the command lines in order, each waiting for its response (30_encoding.md R64). -/
def runTranscript (c : Config) : Env → List Line → HostRun
  | env, [] => .halted env
  | env, l :: ls =>
    match operandValue env l.a, operandValue env l.b, operandValue env l.m with
    | some a, some b, some m =>
      let r := execWord c l.word a b m
      if r.illegal then .faulted l.dest else runTranscript c ((l.dest, r.data) :: env) ls
    | _, _, _ => .undelivered

end Sys2Proof.Machine
end

