-- ==== Sys2Proof/Safety.lean ====
section
/-! DEFINITION. What claims are stated in: the invariant of the clocked machine, when the host program is faulted
(60_exceptions.md R131), and the accuracy measure of 00_scope.md R15, R16, R18 over the real numbers. -/

namespace Sys2Proof.Machine

/-- The largest latency of a configuration. -/
def maxLatency (l : Latencies) : Nat :=
  max l.view (max l.sel (max l.hsum (max l.hmaxU8 (max l.hmaxS16 (max l.shift (max l.log (max l.exp l.illegal)))))))

/-- An illegal response carries no data (10_state.md R24). -/
def Response.wf (r : Response) : Bool := !r.illegal || r.data == 0

/-- What holds in every state a run from reset reaches. -/
structure State.Inv (s : State) : Prop where
  /-- The configuration is inside the spec (00_scope.md R7). -/
  config : s.cfg.wf = true
  /-- `|Q| <= INFLIGHT_MAX` (10_state.md R31). -/
  depth : s.queue.length ≤ s.cfg.inflightMax
  /-- A queued response may be taken within the largest latency (10_state.md R33). -/
  waits : ∀ e ∈ s.queue, e.wait < maxLatency s.cfg.lat
  /-- Queued and received illegal responses carry no data (10_state.md R24). -/
  queued : ∀ e ∈ s.queue, e.resp.wf = true
  received : ∀ r ∈ s.received, r.wf = true
  /-- In reset `rst` is held and the queue is empty (10_state.md R32, R34). -/
  resetPort : s.inReset = true → s.port.rst = true
  resetQueue : s.inReset = true → s.queue = []
  /-- The edges of a reset are counted exactly while it lasts. -/
  resetCount : s.inReset = true ↔ s.resetHeld ≠ 0
  /-- The block has not held `cmd_ready` longer than its bound (70_reset_and_hazards.md R149). -/
  stall : s.stalled ≤ s.cfg.readyHoldMax

/-- `k` edges in a row, stopping at the first refusal. -/
def edges : Nat → State → Host.Outcome State Fault Refusal
  | 0, s => .next s
  | k + 1, s =>
    match step s with
    | .next t => edges k t
    | .fault r => .fault r
    | .refused r => .refused r

/-- On each of the next `n` edges the host keeps a command that it has offered and the block has not accepted (H1 of
93_implementation_defined.md; 70_reset_and_hazards.md R148). -/
def keepsOffers : Nat → State → Bool
  | 0, _ => true
  | n + 1, s =>
    !breaksOffer (cmdAccepted s) s.port (nextCycle (cmdAccepted s) s).port &&
      match step s with
      | .next t => keepsOffers n t
      | .fault _ => true
      | .refused _ => true

/-- The host program is faulted: it has received a response with `ILL = 1` (60_exceptions.md R131; log entry 6). -/
def hostFaulted (s : State) : Bool := s.received.any Response.illegal

/-- `f32(b)` of a finite lane as a real number (00_scope.md R11). -/
noncomputable def realOf (b : W32) : ℝ := (signedUnits b : ℝ) / 2 ^ 149

/-- `ulp(v)` (00_scope.md R15). -/
noncomputable def ulp (v : ℝ) : ℝ :=
  if v = 0 then (2 : ℝ) ^ (-149 : ℤ) else (2 : ℝ) ^ (max ⌊Real.logb 2 |v|⌋ (-126) - 23)

/-- `err(y, t)` in ULP (00_scope.md R15). -/
noncomputable def ulpErr (y : W32) (t : ℝ) : ℝ := |realOf y - t| / ulp t

/-- The answer `y` is a finite float32 within `n` ULP of the exact value `t` (00_scope.md R18). -/
def WithinUlp (n : Nat) (y : W32) (t : ℝ) : Prop := isFinite y = true ∧ ulpErr y t ≤ n

end Sys2Proof.Machine
end

