-- ==== Sys2Proof/Certificates/Slice0/Obligations.lean ====
section
/-! DEFINITION. The statements about the model, from the numbered rules of spec/. -/

open Sys2Proof Sys2Proof.Machine

/-! ### Encoding -/

/-- Every well-formed command decodes back from its word, with both view codes at every value R59 admits (R50, R53, R55,
R66). -/
def Obligations.DecodeInvertsEncode : Prop :=
  ∀ i : Instr, i.wellFormed = true → decode (encode i) = .ok i

/-- A word has at most one meaning: of all 32-bit words, only the word of a well-formed command decodes to it (R60,
R66). -/
def Obligations.EncodeInvertsDecode : Prop :=
  ∀ (w : W32) (i : Instr), decode w = .ok i → encode i = w ∧ i.wellFormed = true

/-- The illegal words are those of the four cases of R67, and each gets `ILL = 1, R = 0^128`; every other word gets
`ILL = 0`. The cases are written out here from R53 to R59, not through the decoder. -/
def Obligations.IllegalWordsAreTheFourCases : Prop :=
  ∀ (c : Config) (w : W32) (a b m : V128),
    let op := (w.extractLsb' 0 8).toNat
    let f := (w.extractLsb' 8 4).toNat
    let t := (w.extractLsb' 12 4).toNat
    let illegalCase : Prop :=
      w.extractLsb' 16 16 ≠ 0#16 ∨
      op ∉ [0x01, 0x10, 0x20, 0x21, 0x22, 0x30, 0x31, 0x40, 0x41] ∨
      (op ≠ 0x01 ∧ (f ≠ 0 ∨ t ≠ 0)) ∨
      (op = 0x01 ∧ ¬((f ≤ 0x8 ∧ t ≤ 0x8) ∨ (0x9 ≤ f ∧ f ≤ 0xD ∧ 0x9 ≤ t ∧ t ≤ 0xD)))
    (illegalCase → execWord c w a b m = ⟨0, true⟩) ∧ (¬illegalCase → (execWord c w a b m).illegal = false)

/-- The command words of R62, and illegal words of each case of R67. -/
def Obligations.ListedWordsDecode : Prop :=
  decode 0x00002101 = .ok (.view .u8x16 .i16x8) ∧ decode 0x00000010 = .ok .sel ∧ decode 0x00000020 = .ok .hsumF32 ∧
  decode 0x00000021 = .ok .hmaxU8 ∧ decode 0x00000022 = .ok .hmaxS16 ∧ decode 0x00000030 = .ok .rshiftF32 ∧
  decode 0x00000031 = .ok .lshiftF32 ∧ decode 0x00000040 = .ok .logF32 ∧ decode 0x00000041 = .ok .expF32 ∧
  decode 0x00010010 = .error .reservedBits ∧ decode 0x00000000 = .error .reservedOpcode ∧
  decode 0x00000110 = .error .strayViewCode ∧ decode 0x00009101 = .error .illegalViewPair

/-- The syntax of R62 names every well-formed command: its written form assembles to its word; and the pseudo-commands of
R63 assemble to the words given there. -/
def Obligations.WrittenCommandsAssemble : Prop :=
  (∀ i : Instr, i.wellFormed = true → assemble (Instr.asm i) = some (encode i)) ∧
  assemble "PASS" = some 0x00001101 ∧ assemble "LOW64" = some 0x0000AA01

/-! ### Views -/

/-- `VIEW` (R74): its word is `VTO`, `VFROM` and the opcode; it completes in every state with the response `A` for V128
views and `{0^64, A[63:0]}` for V64 views, queued with `LAT_VIEW`, and nothing else changes. -/
def Obligations.ViewResult : Prop :=
  ∀ (f t : View) (s : State), (Instr.view f t).wellFormed = true →
    decode (0#16 ++ t.code ++ f.code ++ 0x01#8) = .ok (.view f t) ∧ exec (.view f t) s = .next { s with queue := s.queue ++
      [⟨⟨if f.isHalf then 0#64 ++ s.port.cmdA.extractLsb' 0 64 else s.port.cmdA, false⟩, s.cfg.lat.view⟩] }

/-- The aliasing invariant (R72): a view change never changes a bit of the storage it names, and going from one view to
another of the same storage width and back gives the value bit for bit (a V64 value is the low half of the port). -/
def Obligations.ViewAliasing : Prop :=
  ∀ (c : Config) (p q : View) (v b m b' m' : V128), p.isHalf = q.isHalf →
    let there := execWord c (encode (.view p q)) v b m
    let back := execWord c (encode (.view q p)) there.data b' m'
    there.illegal = false ∧ back.illegal = false ∧
    (p.isHalf = false → there.data = v ∧ back.data = v) ∧
    (p.isHalf = true → there.data = 0#64 ++ v.extractLsb' 0 64 ∧ back.data = 0#64 ++ v.extractLsb' 0 64)

/-- Bit `b` of byte `k` of a V128 or a V64 is bit `8k + b`, and byte `i` of lane `j` of width `w` is byte `j*w/8 + i` of
the value, least significant first (R42). -/
def Obligations.LanesAreBytesInOrder : Prop :=
  ∀ n : Nat, n ∈ [64, 128] → ∀ (v : BitVec n) (w : Nat), w ∈ [8, 16, 32, 64] →
    (∀ k < n / 8, ∀ b < 8, (lane 8 v k).getLsbD b = v.getLsbD (8 * k + b)) ∧
    ∀ j i : Nat, j < n / w → i < w / 8 → lane 8 (lane w v j) i = lane 8 v (j * w / 8 + i)

/-- The values of the lanes of all fourteen views (R70, R71; lane widths and counts written out here): the unsigned reading
of a lane is the number its bits write, the signed one is congruent to it modulo `2^w` and lies in
`-2^(w-1) .. 2^(w-1) - 1` (R10), and the float views read the lane's bits as a float32. -/
def Obligations.SignedAndUnsignedReadings : Prop :=
  ∀ v : V128,
    (∀ (p q : View) (w n k : Nat),
      (p, q, w, n) ∈ [(View.i8x16, View.u8x16, 8, 16), (.i16x8, .u16x8, 16, 8), (.i32x4, .u32x4, 32, 4),
        (.i64x2, .u64x2, 64, 2), (.i8x8, .u8x8, 8, 8), (.i64x1, .u64x1, 64, 1)] → k < n →
      ∃ x y : Int, View.laneValue p v k = some (.int x) ∧ View.laneValue q v k = some (.int y) ∧
        y = (v.extractLsb' (w * k) w).toNat ∧ y = x % 2 ^ w ∧ -2 ^ (w - 1) ≤ x ∧ x < 2 ^ (w - 1)) ∧
    (∀ k < 4, View.laneValue .f32x4 v k = some (.float (floatVal (v.extractLsb' (32 * k) 32)))) ∧
    (∀ k < 2, View.laneValue .f32x2 v k = some (.float (floatVal (v.extractLsb' (32 * k) 32))))

/-- A host that stores a V128 and reads it back, byte `k` at offset `k`, has the same value (R44). -/
def Obligations.StoredBytesReadBack : Prop :=
  ∀ v : V128, ofStoredBytes (storedBytes v) = v ∧ ∀ k < 16, (storedBytes v)[k]? = some (lane 8 v k)

/-! ### Select -/

/-- `SEL` (R80): its word is `0x00000010`; it completes in every state, bit `i` of its response being
`M[i] ? B[i] : A[i]`, queued with `LAT_SEL`, and nothing else changes. -/
def Obligations.SelResult : Prop :=
  decode 0x00000010 = .ok .sel ∧ ∀ s : State, ∃ r : V128,
    exec .sel s = .next { s with queue := s.queue ++ [⟨⟨r, false⟩, s.cfg.lat.sel⟩] } ∧
    r = (s.port.cmdA &&& ~~~s.port.cmdM) ||| (s.port.cmdB &&& s.port.cmdM) ∧
    ∀ i < 128, r.getLsbD i = if s.port.cmdM.getLsbD i then s.port.cmdB.getLsbD i else s.port.cmdA.getLsbD i

/-- Under a mask that is well formed at lane width `w`, lane `k` of `SEL` is `B`'s where the mask is all ones and `A`'s
where it is all zeros (R82). -/
def Obligations.SelLaneUniformMask : Prop :=
  ∀ (c : Config) (a b m : V128) (w : Nat), w ∈ [8, 16, 32, 64] →
    (∀ k < 128 / w, lane w m k = 0 ∨ lane w m k = BitVec.allOnes w) →
    ∀ k < 128 / w,
      (lane w m k = BitVec.allOnes w → lane w (execWord c 0x10 a b m).data k = lane w b k) ∧
      (lane w m k = 0 → lane w (execWord c 0x10 a b m).data k = lane w a k)

/-- The laws of `SEL` of R84. -/
def Obligations.SelLaws : Prop :=
  ∀ (c : Config) (a b m : V128),
    let sel := fun a b m : V128 => (execWord c 0x10 a b m).data
    sel a b 0 = a ∧ sel a b (BitVec.allOnes 128) = b ∧ sel a a m = a ∧ sel a b (~~~m) = sel b a m ∧
    sel (sel a b m) b m = sel a b m

/-! ### Reductions -/

/-- `HSUM.F32` (R85): its word is `0x00000020`; it completes in every state with the response `{0^96, s}` for the tree sum
`s`, queued with `LAT_HSUM`, and nothing else changes. -/
def Obligations.HsumResult : Prop :=
  decode 0x00000020 = .ok .hsumF32 ∧ ∀ s : State,
    let a := s.port.cmdA
    let add := fadd32 s.cfg.nanOut
    exec .hsumF32 s = .next { s with queue := s.queue ++
      [⟨⟨0#96 ++ add (add (a.extractLsb' 0 32) (a.extractLsb' 32 32)) (add (a.extractLsb' 64 32) (a.extractLsb' 96 32)),
        false⟩, s.cfg.lat.hsum⟩] }

/-- `HSUM.F32` is unchanged by swapping lanes 0 and 1, lanes 2 and 3, or the two pairs (R90). -/
def Obligations.HsumSwaps : Prop :=
  ∀ (c : Config) (l0 l1 l2 l3 : W32) (b m : V128),
    let hsum := fun v : V128 => execWord c 0x20 v b m
    hsum (pack32 l1 l0 l2 l3) = hsum (pack32 l0 l1 l2 l3) ∧ hsum (pack32 l0 l1 l3 l2) = hsum (pack32 l0 l1 l2 l3) ∧
    hsum (pack32 l2 l3 l0 l1) = hsum (pack32 l0 l1 l2 l3)

/-- `HMAX.U8` (R86): its word is `0x00000021`; it completes in every state, its response holding in `R[7:0]` the largest of
the 16 unsigned bytes, zeros above, queued with `LAT_HMAX_U8`, and nothing else changes. -/
def Obligations.HmaxU8Result : Prop :=
  decode 0x00000021 = .ok .hmaxU8 ∧ ∀ s : State, ∃ r : BitVec 8,
    exec .hmaxU8 s = .next { s with queue := s.queue ++ [⟨⟨0#120 ++ r, false⟩, s.cfg.lat.hmaxU8⟩] } ∧
    (∃ k < 16, r = lane 8 s.port.cmdA k) ∧ ∀ k < 16, (lane 8 s.port.cmdA k).toNat ≤ r.toNat

/-- `HMAX.S16` (R87): its word is `0x00000022`; it completes in every state, its response holding in `R[15:0]` the largest
of the 8 signed 16-bit lanes, zeros above, queued with `LAT_HMAX_S16`, and nothing else changes. -/
def Obligations.HmaxS16Result : Prop :=
  decode 0x00000022 = .ok .hmaxS16 ∧ ∀ s : State, ∃ r : BitVec 16,
    exec .hmaxS16 s = .next { s with queue := s.queue ++ [⟨⟨0#112 ++ r, false⟩, s.cfg.lat.hmaxS16⟩] } ∧
    (∃ k < 8, r = lane 16 s.port.cmdA k) ∧ ∀ k < 8, (lane 16 s.port.cmdA k).toInt ≤ r.toInt

/-- The two maxima are unchanged by any permutation of the lanes they read (R90). -/
def Obligations.MaximaIgnoreLaneOrder : Prop :=
  ∀ (c : Config) (u v b m : V128),
    (∀ σ : Equiv.Perm (Fin 16), (∀ k : Fin 16, lane 8 v k = lane 8 u (σ k)) →
      execWord c 0x21 v b m = execWord c 0x21 u b m) ∧
    (∀ σ : Equiv.Perm (Fin 8), (∀ k : Fin 8, lane 16 v k = lane 16 u (σ k)) →
      execWord c 0x22 v b m = execWord c 0x22 u b m)

/-! ### Shifts -/

/-- `RSHIFT.F32` (R95): its word is `0x00000030`; it completes in every state with the response `{A[95:0], B[31:0]}`,
queued with `LAT_SHIFT`, and nothing else changes. -/
def Obligations.RshiftResult : Prop :=
  decode 0x00000030 = .ok .rshiftF32 ∧ ∀ s : State, exec .rshiftF32 s = .next { s with queue := s.queue ++
    [⟨⟨s.port.cmdA.extractLsb' 0 96 ++ s.port.cmdB.extractLsb' 0 32, false⟩, s.cfg.lat.shift⟩] }

/-- `LSHIFT.F32` (R96): its word is `0x00000031`; it completes in every state with the response `{B[31:0], A[127:32]}`,
queued with `LAT_SHIFT`, and nothing else changes. -/
def Obligations.LshiftResult : Prop :=
  decode 0x00000031 = .ok .lshiftF32 ∧ ∀ s : State, exec .lshiftF32 s = .next { s with queue := s.queue ++
    [⟨⟨s.port.cmdB.extractLsb' 0 32 ++ s.port.cmdA.extractLsb' 32 96, false⟩, s.cfg.lat.shift⟩] }

/-- The round-trip laws of R98. -/
def Obligations.ShiftRoundTrips : Prop :=
  ∀ (cfg : Config) (m a b c : V128),
    let rshift := fun a b : V128 => (execWord cfg 0x30 a b m).data
    let lshift := fun a b : V128 => (execWord cfg 0x31 a b m).data
    lshift (rshift a b) c = pack32 (lane 32 a 0) (lane 32 a 1) (lane 32 a 2) (lane 32 c 0) ∧
    (lshift (rshift a b) c = a ↔ lane 32 c 0 = lane 32 a 3) ∧
    rshift (lshift a b) c = pack32 (lane 32 c 0) (lane 32 a 1) (lane 32 a 2) (lane 32 a 3) ∧
    (rshift (lshift a b) c = a ↔ lane 32 c 0 = lane 32 a 0) ∧
    rshift (lshift a b) a = a

/-! ### Float32 arithmetic (R12) -/

/-- `fadd32` of finite operands is the exact sum rounded once (R12): when the result is finite no float32 is nearer to the
exact sum, and of two nearest the one with an even last bit is taken; it is infinite, with the sum's sign, exactly
when the exact sum is at least `2^128 - 2^103` in magnitude; a zero sum is `-0` only of two negative operands. In units
of `2^-149`. -/
def Obligations.AdditionRoundsToNearestEven : Prop :=
  ∀ nan x y : W32, isFinite x = true → isFinite y = true →
    let r := fadd32 nan x y
    let sum := signedUnits x + signedUnits y
    (2 ^ 277 - 2 ^ 252 ≤ sum.natAbs → r = if sum < 0 then 0xFF800000#32 else 0x7F800000#32) ∧
    (sum.natAbs < 2 ^ 277 - 2 ^ 252 → isFinite r = true ∧ ∀ z : W32, isFinite z = true →
      (signedUnits r - sum).natAbs ≤ (signedUnits z - sum).natAbs ∧
      ((signedUnits r - sum).natAbs = (signedUnits z - sum).natAbs → signedUnits z ≠ signedUnits r →
        r.getLsbD 0 = false)) ∧
    (sum = 0 → r = if signBit x && signBit y then 0x80000000#32 else 0x00000000#32)

/-- `fmul32` of finite operands is the exact product rounded once (R12), as in `AdditionRoundsToNearestEven`. That the sign
is the exclusive or of the operands' signs, also of a zero or an infinite result, is the model's presumption from
IEEE-754 (log entry 12). In units of `2^-298`. -/
def Obligations.MultiplicationRoundsToNearestEven : Prop :=
  ∀ nan x y : W32, isFinite x = true → isFinite y = true →
    let r := fmul32 nan x y
    let product := signedUnits x * signedUnits y
    signBit r = (signBit x ^^ signBit y) ∧
    ((2 ^ 277 - 2 ^ 252) * 2 ^ 149 ≤ product.natAbs → isInf r = true) ∧
    (product.natAbs < (2 ^ 277 - 2 ^ 252) * 2 ^ 149 → isFinite r = true ∧ ∀ z : W32, isFinite z = true →
      (signedUnits r * 2 ^ 149 - product).natAbs ≤ (signedUnits z * 2 ^ 149 - product).natAbs ∧
      ((signedUnits r * 2 ^ 149 - product).natAbs = (signedUnits z * 2 ^ 149 - product).natAbs →
        signedUnits z ≠ signedUnits r → r.getLsbD 0 = false))

/-- The special operands of the primitives (R12, R85, R133): a NaN operand, opposite infinities in a sum and zero times
an infinity give `NAN_OUT`; otherwise an infinity carries through with its IEEE sign; subtraction is addition of the
negated operand. Where R12 only names IEEE-754 the rules are the model's presumption (log entry 12). -/
def Obligations.ArithmeticOfSpecialOperands : Prop :=
  ∀ nan x y : W32,
    (isNaN x = true ∨ isNaN y = true → fadd32 nan x y = nan ∧ fsub32 nan x y = nan ∧ fmul32 nan x y = nan) ∧
    (isInf x = true → isFinite y = true → fadd32 nan x y = x ∧ fadd32 nan y x = x) ∧
    (isInf x = true → isInf y = true → fadd32 nan x y = if x = y then x else nan) ∧
    (isInf x = true → isZero y = true → fmul32 nan x y = nan ∧ fmul32 nan y x = nan) ∧
    (isInf x = true → isNaN y = false → isZero y = false →
      fmul32 nan x y = (if signBit x = signBit y then 0x7F800000#32 else 0xFF800000#32) ∧
      fmul32 nan y x = fmul32 nan x y) ∧
    (isNaN y = false → fsub32 nan x y = fadd32 nan x (y ^^^ 0x80000000#32))

/-- `flt32` is the ordered less-than, `i2f32` is exact up to `2^24`, and `floor32` is the floor (R12). That the order
ignores the sign of zero and has the infinities at its ends is the model's presumption from IEEE-754 (log entry 12). -/
def Obligations.ComparisonAndConversion : Prop :=
  (∀ x y : W32, isNaN x = true ∨ isNaN y = true → flt32 x y = false) ∧
  (∀ x y : W32, isFinite x = true → isFinite y = true → (flt32 x y = true ↔ realOf x < realOf y)) ∧
  (∀ x : W32, isFinite x = true → flt32 x 0x7F800000#32 = true ∧ flt32 0xFF800000#32 x = true ∧
    flt32 0x7F800000#32 x = false ∧ flt32 x 0xFF800000#32 = false) ∧
  (flt32 0xFF800000#32 0x7F800000#32 = true ∧ flt32 0x7F800000#32 0xFF800000#32 = false ∧
    flt32 0x7F800000#32 0x7F800000#32 = false ∧ flt32 0xFF800000#32 0xFF800000#32 = false) ∧
  (∀ n : Int, n.natAbs ≤ 2 ^ 24 → isFinite (i2f32 n) = true ∧ realOf (i2f32 n) = n) ∧
  (∀ x : W32, isFinite x = true → floor32 x = ⌊realOf x⌋)

/-! ### Logarithm and exponential -/

/-- `LOG.F32` (R100): its word is `0x00000040`; it completes in every state, lane `k` of its response being `LOGF` of lane
`k` of `A`, queued with `LAT_LOG`, and nothing else changes. -/
def Obligations.LogResult : Prop :=
  decode 0x00000040 = .ok .logF32 ∧ ∀ s : State, ∃ r : V128,
    exec .logF32 s = .next { s with queue := s.queue ++ [⟨⟨r, false⟩, s.cfg.lat.log⟩] } ∧
    ∀ k < 4, lane 32 r k = logf s.cfg (lane 32 s.port.cmdA k)

/-- The special inputs of `LOGF` (R101) and its exact zero at 1 (R102), in every configuration. -/
def Obligations.LogSpecialInputs : Prop :=
  ∀ (c : Config) (x : W32),
    (isNaN x = true → logf c x = c.nanOut) ∧
    logf c 0x00000000#32 = 0xFF800000#32 ∧
    logf c 0x80000000#32 = 0xFF800000#32 ∧
    (signBit x = true → isNaN x = false → x ≠ 0x80000000#32 → logf c x = c.nanOut) ∧
    logf c 0x7F800000#32 = 0x7F800000#32 ∧
    logf c 0x3F800000#32 = 0x00000000#32

/-- The default `LOGF` is `LOGF_REF` (R106), with the constants of R107, on every lane and for every `NAN_OUT`; written out
here from the rule, apart from the model's own definition. -/
def Obligations.LogReferenceAlgorithm : Prop :=
  ∀ (c : Config) (x : W32), c.logImpl = .reference →
    let add := fadd32 c.nanOut
    let sub := fsub32 c.nanOut
    let mul := fmul32 c.nanOut
    let x1 := if isSubnormal x then mul x 0x4B000000#32 else x
    let ei : Int := (x1.extractLsb' 23 8).toNat - 126 + (if isSubnormal x then -23 else 0)
    let m : W32 := 0x3F000000#32 ||| (0#9 ++ x1.extractLsb' 0 23)
    let low := flt32 m 0x3F3504F3#32
    let e := if low then sub (i2f32 ei) 0x3F800000#32 else i2f32 ei
    let t := if low then add (sub m 0x3F800000#32) m else sub m 0x3F800000#32
    let z := mul t t
    let p := [0xBDEBD1B8#32, 0x3DEF251A#32, 0xBDFE5D4F#32, 0x3E11E9BF#32, 0xBE2AAE50#32, 0x3E4CCEAC#32, 0xBE7FFFFC#32,
      0x3EAAAAAA#32].foldl (fun y q => add (mul y t) q) 0x3D9021BB#32
    let y := sub (add (mul (mul p t) z) (mul e 0xB95E8083#32)) (mul z 0x3F000000#32)
    logf c x =
      if isNaN x then c.nanOut
      else if isZero x then 0xFF800000#32
      else if x.getLsbD 31 then c.nanOut
      else if x = 0x7F800000#32 then 0x7F800000#32
      else add (add t y) (mul e 0x3F318000#32)

/-- On a positive subnormal a `LOGF` that is not the reference answers its free value, whatever that is (R104). -/
def Obligations.LogOfSubnormalIsFree : Prop :=
  ∀ (c : Config) (id : Nat) (x : W32), c.logImpl = .free id → isSubnormal x = true → signBit x = false →
    logf c x = Config.freeLog id x

/-- The accuracy contract on positive normal inputs (R103, R105): a `LOGF` that is not the reference answers a finite
float32 within `LOG_MAX_ULP` ULP of the exact logarithm, or what `LOGF_REF` answers (the model's reading of an
implementation that breaks the contract, log entry 11; R108 records that `LOGF_REF` meets it). -/
def Obligations.FreeLogMeetsAccuracy : Prop :=
  ∀ (c : Config) (id : Nat) (x : W32), c.logImpl = .free id → isNormal x = true → signBit x = false →
    WithinUlp c.logMaxUlp (logf c x) (Real.log (realOf x)) ∨ logf c x = logfRef c.nanOut x

/-- `EXP.F32` (R115): its word is `0x00000041`; it completes in every state, lane `k` of its response being `EXPF` of lane
`k` of `A`, queued with `LAT_EXP`, and nothing else changes. -/
def Obligations.ExpResult : Prop :=
  decode 0x00000041 = .ok .expF32 ∧ ∀ s : State, ∃ r : V128,
    exec .expF32 s = .next { s with queue := s.queue ++ [⟨⟨r, false⟩, s.cfg.lat.exp⟩] } ∧
    ∀ k < 4, lane 32 r k = expf s.cfg (lane 32 s.port.cmdA k)

/-- The special inputs of `EXPF` (R116), its overflow to `+inf` (R117) and its flush to `+0` (R118), in every
configuration. That both thresholds are constants in every configuration is the model's deduction (log entry 8). -/
def Obligations.ExpSpecialInputs : Prop :=
  ∀ (c : Config) (x : W32),
    (isNaN x = true → expf c x = c.nanOut) ∧
    expf c 0x7F800000#32 = 0x7F800000#32 ∧
    expf c 0xFF800000#32 = 0x00000000#32 ∧
    expf c 0x00000000#32 = 0x3F800000#32 ∧
    expf c 0x80000000#32 = 0x3F800000#32 ∧
    (isNaN x = false → flt32 x 0x42B17218#32 = false → expf c x = 0x7F800000#32) ∧
    (flt32 x 0xC2AEAC4F#32 = true → expf c x = 0x00000000#32)

/-- The default `EXPF` is `EXPF_REF` (R121), with the constants of R122, on every lane and for every `NAN_OUT`; written out
here from the rule, apart from the model's own definition. -/
def Obligations.ExpReferenceAlgorithm : Prop :=
  ∀ (c : Config) (x : W32), c.expImpl = .reference →
    let add := fadd32 c.nanOut
    let sub := fsub32 c.nanOut
    let mul := fmul32 c.nanOut
    let n := floor32 (add (mul x 0x3FB8AA3B#32) 0x3F000000#32)
    let nf := i2f32 n
    let r := sub (sub x (mul nf 0x3F318000#32)) (mul nf 0xB95E8083#32)
    let p := [0x3AB743CE#32, 0x3C088908#32, 0x3D2AA9C1#32, 0x3E2AAAAA#32, 0x3F000000#32].foldl
      (fun y q => add (mul y r) q) 0x39506967#32
    let y := add (add (mul p (mul r r)) r) 0x3F800000#32
    expf c x =
      if isNaN x then c.nanOut
      else if flt32 x 0x42B17218#32 = false then 0x7F800000#32
      else if flt32 x 0xC2AEAC4F#32 = true then 0x00000000#32
      else if n = 128 then mul (mul y 0x40000000#32) 0x7F000000#32
      else mul y (0#1 ++ BitVec.ofInt 8 (n + 127) ++ 0#23)

/-- `EXP_HI` and `EXP_LO` stand where R117 and R118 put them: the exact exponential reaches the overflow threshold
`2^128 - 2^103` at `EXP_HI` and at no smaller float32 in the order of R12, and the smallest normal `2^-126` at `EXP_LO`
and at no smaller float32. -/
def Obligations.ExpThresholdsAreTheFloatRange : Prop :=
  (∀ x : W32, isFinite x = true →
    (flt32 x Config.expHi = false ↔ (2 : ℝ) ^ 128 - 2 ^ 103 ≤ Real.exp (realOf x))) ∧
  (∀ x : W32, isFinite x = true → (flt32 x Config.expLo = true ↔ Real.exp (realOf x) < (2 : ℝ) ^ (-126 : ℤ)))

/-- The accuracy contract in range (R119, R120): an `EXPF` that is not the reference answers a finite float32 that is no
subnormal (R118) within `EXP_MAX_ULP` ULP of the exact exponential, or what `EXPF_REF` answers (log entry 11; R123 records
that `EXPF_REF` meets it and returns no subnormal). The zeros are in `ExpSpecialInputs`. -/
def Obligations.FreeExpMeetsAccuracy : Prop :=
  ∀ (c : Config) (id : Nat) (x : W32), c.expImpl = .free id → isZero x = false →
    flt32 x 0xC2AEAC4F#32 = false → flt32 x 0x42B17218#32 = true →
    (WithinUlp c.expMaxUlp (expf c x) (Real.exp (realOf x)) ∧ isSubnormal (expf c x) = false) ∨
      expf c x = expfRef c.nanOut x

/-! ### The clocked machine -/

/-- What is left by reset, for every configuration (R34, R146): an empty queue, `inReset` false, `rsp_valid` 0, and with
room for a command `cmd_ready` 1. That `cmd_ready` is 1 at once is the model's choice of log entry 4. -/
def Obligations.StateAfterReset : Prop :=
  ∀ c : Config, 1 ≤ c.inflightMax →
    let s := State.resetWith c
    s.cfg = c ∧ s.queue = [] ∧ s.inReset = false ∧ s.port.rst = false ∧ rspValid s = false ∧ cmdReady s = true ∧
    State.reset = State.resetWith Config.default

/-- An edge that samples `rst = 1` (R145): `cmd_ready = 0` and `rsp_valid = 0`, the queue is cleared with nothing
delivered, and `inReset` lasts as long as `rst` is held; a host that releases `rst` before `RESET_CYCLES` edges is
refused (H2). -/
def Obligations.ResetEdgeClearsQueue : Prop :=
  ∀ s : State, s.port.rst = true →
    let c := nextCycle false s
    cmdReady s = false ∧ rspValid s = false ∧
    (c.port.rst = true ∨ s.cfg.resetCycles ≤ s.resetHeld + 1 →
      ∃ t, step s = .next t ∧ t.queue = [] ∧ t.received = s.received ∧ t.inReset = c.port.rst ∧ t.port = c.port ∧
        t.cfg = s.cfg) ∧
    (c.port.rst = false → s.resetHeld + 1 < s.cfg.resetCycles → step s = .refused .shortReset)

/-- An edge out of reset runs the decoded command (R60, R148): a command is accepted exactly when it is offered, the
queue has room and the block is out of reset and not holding back; then the step is `exec` of the decoded command,
the closing of the edge, and the host's next cycle. How the block's choice to hold back is bounded is the model's (log
entry 4). -/
def Obligations.StepRunsTheDecodedCommand : Prop :=
  ∀ (s : State) (i : Instr), s.port.rst = false → decode s.port.cmdWord = .ok i →
    (cmdAccepted s = true ↔ s.port.cmdValid = true ∧ s.inReset = false ∧ s.queue.length < s.cfg.inflightMax ∧
      ¬(s.hold = true ∧ s.stalled < s.cfg.readyHoldMax)) ∧
    (cmdAccepted s = true → ∀ u, exec i s = .next u → step s = driveNext true (closeEdge s u)) ∧
    (cmdAccepted s = false → step s = driveNext false (closeEdge s s))

/-- An accepted illegal word (R131): the response `R = 0^128`, `ILL = 1` is queued in order, and the edge is otherwise
the edge with no command accepted. -/
def Obligations.IllegalCommandOnlyQueuesItsResponse : Prop :=
  ∀ (s : State) (r : Reject), s.port.rst = false → cmdAccepted s = true → decode s.port.cmdWord = .error r →
    step s = driveNext true (closeEdge s { s with queue := s.queue ++ [⟨⟨0, true⟩, s.cfg.lat.illegal⟩] })

/-- An offered response is held until it is taken (R150). -/
def Obligations.OfferedResponseIsHeld : Prop :=
  ∀ s t : State, rspValid s = true → s.port.rspReady = false → step s = .next t → t.port.rst = false →
    rspValid t = true ∧ rspOut t = rspOut s ∧ t.received = s.received

/-- Nothing is lost, doubled or reordered (R31, R151): at an edge out of reset, what the host has received followed by
what is queued grows by exactly the accepted command's response, a function of its word and operands alone. -/
def Obligations.ResponsesAreConservedInOrder : Prop :=
  ∀ s t : State, s.port.rst = false → step s = .next t →
    t.received ++ t.queue.map Entry.resp =
      s.received ++ s.queue.map Entry.resp ++
        (if cmdAccepted s then [execWord s.cfg s.port.cmdWord s.port.cmdA s.port.cmdB s.port.cmdM] else [])

/-- The latency of a command (R152, R155): accepted with an empty queue and not taken, its response is offered `k` edges
later exactly when `k` is at least the latency of its kind, and what is offered then is its own response. The host may
drive any new commands meanwhile (`script`; once that is over it holds its signals, log entry 2), as long as it breaks no
offer. The counting of edges is the model's (log entry 14). -/
def Obligations.ResponseIsOfferedAfterItsLatency : Prop :=
  ∀ (s : State) (k : Nat), s.queue = [] → cmdAccepted s = true → s.port.rspReady = false →
    (∀ c ∈ s.script, c.port.rst = false ∧ c.port.rspReady = false) → keepsOffers k s = true → 1 ≤ k →
    ∃ t, edges k s = .next t ∧
      (rspValid t = true ↔ latencyOfWord s.cfg.lat s.port.cmdWord ≤ k) ∧
      (rspValid t = true → rspOut t = execWord s.cfg s.port.cmdWord s.port.cmdA s.port.cmdB s.port.cmdM)

/-- The oldest response is delivered within a bounded number of edges to a host that takes responses (R33), whatever
commands it drives meanwhile (`script`; once that is over it holds its signals, log entry 2), as long as it breaks no
offer; the bound `wait + 1` is at most the largest latency in a state of the invariant. The counting of edges is the
model's (log entry 14). -/
def Obligations.OldestResponseIsDelivered : Prop :=
  ∀ (s : State) (e : Entry) (q : List Entry), s.queue = e :: q → s.port.rst = false → s.inReset = false →
    s.port.rspReady = true → (∀ c ∈ s.script, c.port.rst = false ∧ c.port.rspReady = true) →
    keepsOffers (e.wait + 1) s = true →
    (∃ t, edges (e.wait + 1) s = .next t ∧ t.received = s.received ++ [e.resp]) ∧
    (s.Inv → e.wait + 1 ≤ maxLatency s.cfg.lat)

/-- A host that keeps its command on the port while the queue has room has it accepted within the bound on holding
`cmd_ready`, whatever the block chooses in the cycles to come (R149). The bound as a number is the model's (log entries 1
and 4). -/
def Obligations.OfferedCommandIsAccepted : Prop :=
  ∀ s : State, s.port.cmdValid = true → s.port.rst = false → s.inReset = false →
    s.queue.length < s.cfg.inflightMax → (∀ c ∈ s.script, c.port = s.port) →
    ∃ k ≤ s.cfg.readyHoldMax, ∃ t, edges k s = .next t ∧ cmdAccepted t = true ∧
      t.port.cmdWord = s.port.cmdWord

/-- The invariant holds right after reset, in every configuration inside the spec and in the default one. -/
def Obligations.InvariantHoldsAtReset : Prop :=
  (∀ c : Config, c.wf = true → (State.resetWith c).Inv) ∧ State.reset.Inv

/-- The invariant is kept by every step (R24, R31, R32, R33, R34, R149). -/
def Obligations.StepKeepsInvariant : Prop :=
  ∀ s t : State, s.Inv → step s = .next t → t.Inv

/-- Every step of the clocked machine is a run of the untimed machine of R32, and the host receives in it the responses
of its Respond transitions; the configuration is unchanged. -/
def Obligations.StepRefinesUntimedMachine : Prop :=
  ∀ s t : State, s.Inv → step s = .next t →
    UntimedRun s.cfg (untimed s) (edgeEvents s t) (untimed t) ∧
    t.received = s.received ++ receivedIn (edgeEvents s t) ∧ t.cfg = s.cfg

/-- No interleaving is ruled out (R32): each transition that the untimed machine may take out of reset, and a reset, is a
step of the clocked machine from some state of the invariant with that untimed state. -/
def Obligations.EveryUntimedTransitionIsAStep : Prop :=
  ∀ (c : Config) (u v : Untimed) (e : Event), c.wf = true → u.inReset = false → u.queue.length ≤ c.inflightMax →
    (∀ r ∈ u.queue, r.wf = true) → UntimedStep c u e v →
    ∃ s t : State, s.cfg = c ∧ s.Inv ∧ untimed s = u ∧ step s = .next t ∧ edgeEvents s t = [e] ∧ untimed t = v

/-- Operand bits a command does not read have no effect on its response: the table of R22, with R75 for the V64 views. -/
def Obligations.UnreadOperandsDoNotMatter : Prop :=
  ∀ (c : Config) (w : W32) (a b m a' b' m' : V128),
    let same := execWord c w a b m = execWord c w a' b' m'
    (∀ r : Reject, decode w = .error r → same) ∧
    (∀ f t : View, decode w = .ok (.view f t) → f.isHalf = true → a.extractLsb' 0 64 = a'.extractLsb' 0 64 → same) ∧
    (∀ f t : View, decode w = .ok (.view f t) → a = a' → same) ∧
    (∀ i ∈ [Instr.hsumF32, .hmaxU8, .hmaxS16, .logF32, .expF32], decode w = .ok i → a = a' → same) ∧
    (∀ i ∈ [Instr.rshiftF32, .lshiftF32], decode w = .ok i → a = a' → b.extractLsb' 0 32 = b'.extractLsb' 0 32 → same)

/-- The response does not depend on timing (R158): two states that accept the same word with the same operands, in
configurations that differ only in latencies, queue depth, reset length and the bound on `cmd_ready`, queue the same
response, whatever else differs. -/
def Obligations.ResponseDoesNotDependOnTiming : Prop :=
  ∀ s s' t t' : State,
    cmdAccepted s = true → cmdAccepted s' = true → step s = .next t → step s' = .next t' →
    s'.port.cmdWord = s.port.cmdWord → s'.port.cmdA = s.port.cmdA → s'.port.cmdB = s.port.cmdB →
    s'.port.cmdM = s.port.cmdM → s'.cfg.nanOut = s.cfg.nanOut → s'.cfg.logImpl = s.cfg.logImpl →
    s'.cfg.expImpl = s.cfg.expImpl → s'.cfg.logMaxUlp = s.cfg.logMaxUlp → s'.cfg.expMaxUlp = s.cfg.expMaxUlp →
    (t'.received ++ t'.queue.map Entry.resp).getLast? = (t.received ++ t.queue.map Entry.resp).getLast?

/-- A host that drops or changes an offered command before it is accepted is refused (H1, R148; log entry 5): dropping
`cmd_valid`, changing the word, or changing an operand bit that the command reads by the table of R22 (R75 for V64
views); a change of unread bits alone is not refused. -/
def Obligations.ChangedOfferIsRefused : Prop :=
  ∀ s : State, s.port.rst = false → s.port.cmdValid = true → cmdAccepted s = false →
    let p := s.port
    let q := (nextCycle false s).port
    let changed : Prop :=
      (∃ f t : View, decode p.cmdWord = .ok (.view f t) ∧
        (if f.isHalf then q.cmdA.extractLsb' 0 64 ≠ p.cmdA.extractLsb' 0 64 else q.cmdA ≠ p.cmdA)) ∨
      (decode p.cmdWord = .ok .sel ∧ (q.cmdA ≠ p.cmdA ∨ q.cmdB ≠ p.cmdB ∨ q.cmdM ≠ p.cmdM)) ∨
      (∃ i ∈ [Instr.hsumF32, .hmaxU8, .hmaxS16, .logF32, .expF32], decode p.cmdWord = .ok i ∧ q.cmdA ≠ p.cmdA) ∨
      (∃ i ∈ [Instr.rshiftF32, .lshiftF32], decode p.cmdWord = .ok i ∧
        (q.cmdA ≠ p.cmdA ∨ q.cmdB.extractLsb' 0 32 ≠ p.cmdB.extractLsb' 0 32))
    q.rst = false →
    (q.cmdValid = false ∨ q.cmdWord ≠ p.cmdWord ∨ changed → step s = .refused .changedOffer) ∧
    (q.cmdValid = true → q.cmdWord = p.cmdWord → ¬changed → ∃ t, step s = .next t ∧ t.port = q)

/-- The host program is faulted exactly by taking a response with `ILL = 1` (R131). -/
def Obligations.HostIsFaultedByIllegalResponses : Prop :=
  ∀ s t : State, step s = .next t →
    hostFaulted t = (hostFaulted s || (rspTaken s && (rspOut s).illegal))

/-! ### Float32 reading -/

/-- `f32(b)` and the classes (R11; the layout is IEEE-754's, K1): exponent 255 is a NaN or the infinity of its sign; below
that the value is the fraction times `2^-149` for exponent 0 and `(1 + fraction / 2^23) * 2^(exponent - 127)` otherwise,
with the sign of bit 31. -/
def Obligations.FloatReadingIsBinary32 : Prop :=
  ∀ b : W32,
    let e := (b.extractLsb' 23 8).toNat
    let f := (b.extractLsb' 0 23).toNat
    let magnitude : ℝ := if e = 0 then f * (2 : ℝ) ^ (-149 : ℤ) else (1 + f / 2 ^ 23) * (2 : ℝ) ^ ((e : ℤ) - 127)
    (e = 255 → f ≠ 0 → floatVal b = .nan ∧ isNaN b = true) ∧
    (e = 255 → f = 0 → floatVal b = .inf (b.getLsbD 31) ∧ isInf b = true) ∧
    (e < 255 → isFinite b = true ∧ realOf b = (if b.getLsbD 31 then -magnitude else magnitude) ∧
      ∃ u : Nat, floatVal b = .finite (b.getLsbD 31) u ∧ (u : ℝ) / 2 ^ 149 = magnitude)
end

