-- ==== Sys2Proof/Laws/Accuracy.lean ====
section
/-! SUPPORT. The computable accuracy tests of Machine/Accuracy.lean are sound: an answer that passes `logWithin` or
`expWithin` is within that many ULP of the real logarithm or exponential (44_log.md R103, 45_exp.md R119). -/

namespace Sys2Proof.Machine

open Finset in
/-- The recursion is the partial sum of the series. -/
theorem halfLogSum_cast (z : Rat) (n : Nat) :
    ((halfLogSum z n : Rat) : ℝ) = ∑ i ∈ range n, (z : ℝ) ^ (2 * i + 1) / (2 * i + 1) := by
  induction n with
  | zero => simp [halfLogSum]
  | succ n ih => simp [halfLogSum, Finset.sum_range_succ, ih]

theorem pow2_cast (k : Int) : ((pow2 k : Rat) : ℝ) = (2 : ℝ) ^ k := by
  unfold pow2
  split
  · next h =>
    obtain ⟨n, rfl⟩ := Int.eq_ofNat_of_zero_le h
    simp
  · next h =>
    obtain ⟨n, hn⟩ := Int.eq_ofNat_of_zero_le (show 0 ≤ -k by omega)
    obtain rfl : k = -(n : Int) := by omega
    simp

theorem pow2_pos (k : Int) : 0 < pow2 k := by
  have h : (0 : ℝ) < ((pow2 k : Rat) : ℝ) := by rw [pow2_cast]; positivity
  exact_mod_cast h

/-- `2 ^ floorLog2 q` does not exceed `q`. -/
theorem floorLog2_le {q : Rat} (hq : 0 < q) : pow2 (floorLog2 q) ≤ q := by
  unfold floorLog2
  simp only
  split
  · assumption
  · have hn : q.num.natAbs ≠ 0 := by
      have := Rat.num_pos.2 hq
      omega
    have h1 : 2 ^ q.num.natAbs.log2 ≤ q.num.natAbs := Nat.log2_self_le hn
    have h2 : q.den < 2 ^ (q.den.log2 + 1) := Nat.lt_log2_self
    have hd : (0 : ℝ) < q.den := by exact_mod_cast q.den_pos
    have hr : ((pow2 ((q.num.natAbs.log2 : Int) - (q.den.log2 : Int) - 1) : Rat) : ℝ) ≤ (q : ℝ) := by
      rw [pow2_cast, Rat.cast_def q, le_div_iff₀ hd]
      have hz : (q.num : ℝ) = (q.num.natAbs : ℝ) := by
        rw [Nat.cast_natAbs, abs_of_pos (Rat.num_pos.2 hq)]
      rw [hz]
      have e : (2 : ℝ) ^ ((q.num.natAbs.log2 : Int) - (q.den.log2 : Int) - 1) * 2 ^ (q.den.log2 + 1)
          = 2 ^ q.num.natAbs.log2 := by
        rw [← zpow_natCast, ← zpow_natCast, ← zpow_add₀ (by norm_num)]
        congr 1; push_cast; ring
      calc (2 : ℝ) ^ ((q.num.natAbs.log2 : Int) - (q.den.log2 : Int) - 1) * q.den
          ≤ 2 ^ ((q.num.natAbs.log2 : Int) - (q.den.log2 : Int) - 1) * 2 ^ (q.den.log2 + 1) := by
            gcongr; exact_mod_cast h2.le
        _ = 2 ^ q.num.natAbs.log2 := e
        _ ≤ q.num.natAbs := by exact_mod_cast h1
    exact_mod_cast hr

/-- The partial sum and its remainder bound enclose `ln((1+z)/(1-z))`. -/
theorem logRatio_bounds {z : Rat} (h0 : 0 ≤ z) (h1 : z < 1) :
    ((logRatioLower z : Rat) : ℝ) ≤ Real.log ((1 + z) / (1 - z)) ∧
      Real.log ((1 + z) / (1 - z)) ≤ ((logRatioUpper z : Rat) : ℝ) := by
  have h0' : (0 : ℝ) ≤ z := by exact_mod_cast h0
  have h1' : (z : ℝ) < 1 := by exact_mod_cast h1
  have a := Real.sum_range_le_log_div h0' h1' seriesTerms
  have b := Real.log_div_le_sum_range_add h0' h1' seriesTerms
  constructor
  · simp only [logRatioLower, Rat.cast_mul, halfLogSum_cast]
    push_cast
    linarith
  · simp only [logRatioUpper, Rat.cast_mul, Rat.cast_add, Rat.cast_div, Rat.cast_pow, Rat.cast_sub, halfLogSum_cast]
    push_cast
    linarith

theorem ln2_bounds : ((ln2Lower : Rat) : ℝ) ≤ Real.log 2 ∧ Real.log 2 ≤ ((ln2Upper : Rat) : ℝ) := by
  have h := logRatio_bounds (z := 1 / 3) (by norm_num) (by norm_num)
  have e : (1 + (((1 / 3 : Rat) : Rat) : ℝ)) / (1 - (((1 / 3 : Rat) : Rat) : ℝ)) = 2 := by
    push_cast; norm_num
  rw [e] at h
  exact h

theorem ln2Lower_pos : 0 < ln2Lower := by decide +kernel
theorem ln2Upper_pos : 0 < ln2Upper := by decide +kernel

/-- `lnLower` and `lnUpper` enclose the logarithm of every positive rational. -/
theorem ln_bounds {q : Rat} (hq : 0 < q) :
    ((lnLower q : Rat) : ℝ) ≤ Real.log q ∧ Real.log q ≤ ((lnUpper q : Rat) : ℝ) := by
  have hp := pow2_pos (floorLog2 q)
  have hle := floorLog2_le hq
  set k := floorLog2 q with hk
  set t := q / pow2 k with ht
  have ht1 : 1 ≤ t := by rw [ht, le_div_iff₀ hp]; simpa using hle
  have hz0 : 0 ≤ reducedRatio q := by
    simp only [reducedRatio, ← hk, ← ht]
    exact div_nonneg (by linarith) (by linarith)
  have hz1 : reducedRatio q < 1 := by
    simp only [reducedRatio, ← hk, ← ht]
    rw [div_lt_one (by linarith)]; linarith
  have hr := logRatio_bounds hz0 hz1
  have he : (1 + (reducedRatio q : ℝ)) / (1 - (reducedRatio q : ℝ)) = (t : ℝ) := by
    have e : (1 + reducedRatio q) / (1 - reducedRatio q) = t := by
      simp only [reducedRatio, ← hk, ← ht]
      have : t + 1 ≠ 0 := by linarith
      field_simp
      ring
    exact_mod_cast congrArg (fun x : Rat => (x : ℝ)) e
  rw [he] at hr
  have hq' : (q : ℝ) = (2 : ℝ) ^ k * t := by
    have : q = pow2 k * t := by rw [ht]; field_simp
    rw [← pow2_cast]; exact_mod_cast this
  have htp : (0 : ℝ) < t := by exact_mod_cast (by linarith : (0 : Rat) < t)
  have hlog : Real.log q = k * Real.log 2 + Real.log t := by
    rw [hq', Real.log_mul (by positivity) htp.ne', Real.log_zpow]
  obtain ⟨l2, u2⟩ := ln2_bounds
  constructor
  · simp only [lnLower, ← hk, Rat.cast_add, Rat.cast_mul, Rat.cast_intCast]
    rw [hlog]
    have : (k : ℝ) * ((if 0 ≤ k then ln2Lower else ln2Upper : Rat) : ℝ) ≤ k * Real.log 2 := by
      split
      · next h => exact mul_le_mul_of_nonneg_left l2 (by exact_mod_cast h)
      · next h => exact mul_le_mul_of_nonpos_left u2 (by exact_mod_cast (by omega : k ≤ 0))
    linarith [hr.1]
  · simp only [lnUpper, ← hk, Rat.cast_add, Rat.cast_mul, Rat.cast_intCast]
    rw [hlog]
    have : k * Real.log 2 ≤ (k : ℝ) * ((if 0 ≤ k then ln2Upper else ln2Lower : Rat) : ℝ) := by
      split
      · next h => exact mul_le_mul_of_nonneg_left u2 (by exact_mod_cast h)
      · next h => exact mul_le_mul_of_nonpos_left l2 (by exact_mod_cast (by omega : k ≤ 0))
    linarith [hr.2]

theorem ratOf_cast (b : W32) : ((ratOf b : Rat) : ℝ) = realOf b := by
  simp only [ratOf, realOf]; push_cast; norm_num

/-- A value whose magnitude is at least `2^k` has an `ulp` of at least that of binary exponent `k`. -/
theorem ulpAt_le_ulp {k : Int} {v : ℝ} (h : (2 : ℝ) ^ k ≤ |v|) : ((ulpAt k : Rat) : ℝ) ≤ ulp v := by
  have hv : v ≠ 0 := by
    rintro rfl
    have : (0 : ℝ) < 2 ^ k := by positivity
    simp at h; linarith
  have hk : k ≤ ⌊Real.logb 2 |v|⌋ := by
    rw [Int.le_floor]
    rw [Real.le_logb_iff_rpow_le (by norm_num) (by positivity)]
    simpa using h
  rw [ulpAt, pow2_cast, ulp, if_neg hv]
  apply zpow_le_zpow_right₀ (by norm_num)
  omega

theorem ulp_pos (v : ℝ) : 0 < ulp v := by
  unfold ulp; split <;> positivity

/-- A distance of at most `n` times a unit no larger than `ulp t` is within `n` ULP. -/
theorem within_of_abs_le {n : Nat} {y : W32} {t u : ℝ} (hf : isFinite y = true) (h : |realOf y - t| ≤ n * u)
    (hu : u ≤ ulp t) : WithinUlp n y t := by
  refine ⟨hf, ?_⟩
  rw [ulpErr, div_le_iff₀ (ulp_pos t)]
  exact h.trans (mul_le_mul_of_nonneg_left hu (by positivity))

/-- THE specification of `logWithin`: an answer it admits meets R103. -/
theorem logWithin_sound {n : Nat} {x y : W32} (hx : 0 < ratOf x) (h : logWithin n x y = true) :
    WithinUlp n y (Real.log (realOf x)) := by
  simp only [logWithin, Bool.and_eq_true, decide_eq_true_eq] at h
  obtain ⟨⟨⟨hf, hnear⟩, h1⟩, h2⟩ := h
  obtain ⟨hlo, hhi⟩ := ln_bounds hx
  rw [ratOf_cast] at hlo hhi
  set lo := lnLower (ratOf x)
  set hi := lnUpper (ratOf x)
  set near := if 0 < lo then lo else -hi with hn
  have hle : ((near : Rat) : ℝ) ≤ |Real.log (realOf x)| := by
    rw [hn]; split
    · exact hlo.trans (le_abs_self _)
    · push_cast
      exact (neg_le_neg hhi).trans (neg_le_abs _)
  have hu := ulpAt_le_ulp (k := floorLog2 near) (v := Real.log (realOf x)) (by
    rw [← pow2_cast]
    exact (show ((pow2 (floorLog2 near) : Rat) : ℝ) ≤ near by exact_mod_cast floorLog2_le hnear).trans hle)
  refine within_of_abs_le hf ?_ hu
  have h1' : (realOf y - n * (ulpAt (floorLog2 near) : Rat) : ℝ) ≤ lo := by
    rw [← ratOf_cast]; exact_mod_cast h1
  have h2' : (hi : ℝ) ≤ realOf y + n * (ulpAt (floorLog2 near) : Rat) := by
    rw [← ratOf_cast]; exact_mod_cast h2
  rw [abs_le]; constructor <;> linarith

/-- `2 ^ expExponent q` does not exceed `exp q`. -/
theorem expExponent_le (q : Rat) : (2 : ℝ) ^ expExponent q ≤ Real.exp q := by
  obtain ⟨l2, u2⟩ := ln2_bounds
  have key : (expExponent q : ℝ) * Real.log 2 ≤ q := by
    unfold expExponent
    split
    · next h =>
      have h3 : (((q / ln2Upper).floor : Rat)) * ln2Upper ≤ q := by
        rw [← le_div_iff₀ ln2Upper_pos]
        exact Rat.floor_le _
      have h0 : (0 : Int) ≤ (q / ln2Upper).floor := by
        rw [Rat.le_floor_iff]
        simpa using div_nonneg h ln2Upper_pos.le
      calc (((q / ln2Upper).floor : Int) : ℝ) * Real.log 2
          ≤ ((q / ln2Upper).floor : Int) * ln2Upper := mul_le_mul_of_nonneg_left u2 (by exact_mod_cast h0)
        _ ≤ q := by exact_mod_cast h3
    · next h =>
      have h3 : (((q / ln2Lower).floor : Rat)) * ln2Lower ≤ q := by
        rw [← le_div_iff₀ ln2Lower_pos]
        exact Rat.floor_le _
      have h0 : (q / ln2Lower).floor ≤ 0 := by
        have : (((q / ln2Lower).floor : Int) : Rat) ≤ 0 :=
          (Rat.floor_le _).trans (div_nonpos_of_nonpos_of_nonneg (by linarith) ln2Lower_pos.le)
        exact_mod_cast this
      calc (((q / ln2Lower).floor : Int) : ℝ) * Real.log 2
          ≤ ((q / ln2Lower).floor : Int) * ln2Lower := mul_le_mul_of_nonpos_left l2 (by exact_mod_cast h0)
        _ ≤ q := by exact_mod_cast h3
  calc (2 : ℝ) ^ expExponent q = Real.exp (expExponent q * Real.log 2) := by
        rw [mul_comm, Real.exp_mul, Real.exp_log (by norm_num), Real.rpow_intCast]
    _ ≤ Real.exp q := Real.exp_le_exp.2 key

/-- THE specification of `expWithin`: an answer it admits meets R119. -/
theorem expWithin_sound {n : Nat} {x y : W32} (h : expWithin n x y = true) :
    WithinUlp n y (Real.exp (realOf x)) := by
  simp only [expWithin, Bool.and_eq_true, Bool.or_eq_true, decide_eq_true_eq] at h
  obtain ⟨⟨⟨hf, h1⟩, hb⟩, h2⟩ := h
  have hu := ulpAt_le_ulp (k := expExponent (ratOf x)) (v := Real.exp (realOf x)) (by
    rw [abs_of_pos (Real.exp_pos _), ← ratOf_cast]; exact expExponent_le _)
  refine within_of_abs_le hf ?_ hu
  rw [← ratOf_cast, ← ratOf_cast]
  set u := ulpAt (expExponent (ratOf x))
  have ha : ((ratOf y - n * u : Rat) : ℝ) ≤ Real.exp (ratOf x : ℝ) := by
    rcases h1 with h1 | h1
    · exact (show ((ratOf y - n * u : Rat) : ℝ) ≤ 0 by exact_mod_cast h1).trans (Real.exp_pos _).le
    · rcases le_or_gt (ratOf y - n * u) 0 with h0 | h0
      · exact (show ((ratOf y - n * u : Rat) : ℝ) ≤ 0 by exact_mod_cast h0).trans (Real.exp_pos _).le
      · have hl := (ln_bounds h0).2
        rw [← Real.log_le_iff_le_exp (by exact_mod_cast h0)]
        exact hl.trans (by exact_mod_cast h1)
  have hb' : Real.exp (ratOf x : ℝ) ≤ ((ratOf y + n * u : Rat) : ℝ) := by
    have hl := (ln_bounds hb).1
    rw [← Real.le_log_iff_exp_le (by exact_mod_cast hb)]
    exact le_trans (by exact_mod_cast h2) hl
  push_cast at ha hb'
  rw [abs_le]; constructor <;> linarith

end Sys2Proof.Machine
end

