-- ==== Sys2Proof/Laws/Decode.lean ====
section
/-! SUPPORT. The decoder and encoder: a word is the concatenation of its fields, and what the parts of the decoder
answer. -/

namespace Sys2Proof

/-- A word is its four fields side by side (30_encoding.md R50). -/
theorem word_eq_fields (w : W32) : w = rsvField w ++ vtoField w ++ vfromField w ++ opField w := by
  unfold rsvField vtoField vfromField opField
  apply BitVec.eq_of_getLsbD_eq
  intro k hk
  simp only [BitVec.getLsbD_append, BitVec.getLsbD_extractLsb']
  by_cases h1 : k < 8
  · simp [h1]
  · by_cases h2 : k < 12
    · simp [h1, show k - 8 < 4 by omega, show 8 + (k - 8) = k by omega]
    · by_cases h3 : k < 16
      · simp [h1, show ¬ k - 8 < 4 by omega, show k - 8 - 4 < 4 by omega, show 12 + (k - 8 - 4) = k by omega]
      · simp [h1, show ¬ k - 8 < 4 by omega, show ¬ k - 8 - 4 < 4 by omega,
          show 16 + (k - 8 - 4 - 4) = k by omega, show k - 8 - 4 - 4 < 16 by omega]

@[simp] theorem opField_encode (i : Instr) : opField (encode i) = i.opcode := by
  cases i with
  | view f t => cases f <;> cases t <;> rfl
  | _ => rfl

@[simp] theorem vfromField_encode (i : Instr) : vfromField (encode i) = i.vfrom := by
  cases i with
  | view f t => cases f <;> cases t <;> rfl
  | _ => rfl

@[simp] theorem vtoField_encode (i : Instr) : vtoField (encode i) = i.vto := by
  cases i with
  | view f t => cases f <;> cases t <;> rfl
  | _ => rfl

@[simp] theorem rsvField_encode (i : Instr) : rsvField (encode i) = 0#16 := by
  cases i with
  | view f t => cases f <;> cases t <;> rfl
  | _ => rfl

@[simp] theorem viewOfCode_code (p : View) : viewOfCode p.code = some p := by
  cases p <;> rfl

/-- Two view codes are a legal pair exactly when their views have one storage width (30_encoding.md R59). -/
theorem viewPairLegal_code (p q : View) : viewPairLegal p.code q.code = (p.isHalf == q.isHalf) := by
  cases p <;> cases q <;> rfl

/-- A legal pair of codes is the pair of two views of one storage width (30_encoding.md R53, R59). -/
theorem viewPairLegal_cases {f t : BitVec 4} (h : viewPairLegal f t = true) :
    ∃ p q : View, f = p.code ∧ t = q.code ∧ p.isHalf = q.isHalf := by
  have hf : ∀ c : BitVec 4, c.toNat ≤ 0xD → ∃ p : View, c = p.code := by
    intro c hc
    have hall : ∀ c : BitVec 4, c.toNat ≤ 0xD → (viewOfCode c).map View.code = some c := by decide
    have h := hall c hc
    cases hv : viewOfCode c with
    | none => simp [hv] at h
    | some p => exact ⟨p, by simpa [hv] using h.symm⟩
  have hb : f.toNat ≤ 0xD ∧ t.toNat ≤ 0xD := by
    simp only [viewPairLegal, Bool.or_eq_true, Bool.and_eq_true, decide_eq_true_eq] at h
    omega
  obtain ⟨p, rfl⟩ := hf f hb.1
  obtain ⟨q, rfl⟩ := hf t hb.2
  rw [viewPairLegal_code] at h
  exact ⟨p, q, rfl, rfl, by simpa using h⟩

/-- What the `VIEW` arm of the decoder answers (30_encoding.md R60). -/
theorem decodeView_eq_ok_iff (f t : BitVec 4) (i : Instr) :
    decodeView f t = .ok i ↔ ∃ p q : View, f = p.code ∧ t = q.code ∧ p.isHalf = q.isHalf ∧ i = .view p q := by
  unfold decodeView
  constructor
  · intro h
    split at h
    · next hl =>
      obtain ⟨p, q, rfl, rfl, hpq⟩ := viewPairLegal_cases hl
      simp only [viewOfCode_code, Except.ok.injEq] at h
      exact ⟨p, q, rfl, rfl, hpq, h.symm⟩
    · cases h
  · rintro ⟨p, q, rfl, rfl, hpq, rfl⟩
    simp [viewPairLegal_code, hpq]

end Sys2Proof
end

