-- ==== Sys2Proof/Laws/Float32.lean ====
section
/-! SUPPORT. The float32 operations: fields and units of an encoded magnitude, and the one specification of
`roundUnits`, round to nearest with ties to even (00_scope.md R12), which every arithmetic proof cites. -/

namespace Sys2Proof.Machine

/-! ### Fields of a lane -/

theorem expField_eq (b : W32) : expField b = b.toNat % 2 ^ 31 / 2 ^ 23 := by
  simp only [expField, BitVec.extractLsb'_toNat, Nat.shiftRight_eq_div_pow]
  have := b.isLt
  omega

theorem fracField_eq (b : W32) : fracField b = b.toNat % 2 ^ 31 % 2 ^ 23 := by
  simp only [fracField, BitVec.extractLsb'_toNat, Nat.shiftRight_eq_div_pow]
  omega

theorem signBit_eq (b : W32) : signBit b = decide (2 ^ 31 ≤ b.toNat) := by
  have h : b.msb = b.getLsbD 31 := by simp [BitVec.msb_eq_getLsbD_last]
  rw [signBit, ← h, BitVec.msb_eq_decide]

/-- The units of the magnitude bits `mag` of a finite lane. -/
def unitsOf (mag : Nat) : Nat :=
  if mag / 2 ^ 23 = 0 then mag % 2 ^ 23 else (2 ^ 23 + mag % 2 ^ 23) * 2 ^ (mag / 2 ^ 23 - 1)

theorem magUnits_eq (b : W32) : magUnits b = unitsOf (b.toNat % 2 ^ 31) := by
  simp only [magUnits, unitsOf, expField_eq, fracField_eq]

theorem isFinite_iff (b : W32) : isFinite b = true ↔ b.toNat % 2 ^ 31 < 0x7F800000 := by
  simp only [isFinite, expField_eq, decide_eq_true_eq]
  omega

theorem isNaN_iff (b : W32) : isNaN b = true ↔ 0x7F800000 < b.toNat % 2 ^ 31 := by
  simp only [isNaN, expField_eq, fracField_eq, Bool.and_eq_true, beq_iff_eq, bne_iff_ne]
  omega

theorem isInf_iff (b : W32) : isInf b = true ↔ b.toNat % 2 ^ 31 = 0x7F800000 := by
  simp only [isInf, expField_eq, fracField_eq, Bool.and_eq_true, beq_iff_eq]
  omega

theorem isZero_iff (b : W32) : isZero b = true ↔ b.toNat % 2 ^ 31 = 0 := by
  simp only [isZero, expField_eq, fracField_eq, Bool.and_eq_true, beq_iff_eq]
  omega

theorem toNat_withSign {neg : Bool} {mag : Nat} (h : mag < 2 ^ 31) :
    (withSign neg mag).toNat = (if neg then 2 ^ 31 else 0) + mag := by
  rw [withSign, BitVec.toNat_ofNat, Nat.mod_eq_of_lt]
  split <;> omega

theorem toNat_withSign_mod {neg : Bool} {mag : Nat} (h : mag < 2 ^ 31) :
    (withSign neg mag).toNat % 2 ^ 31 = mag := by
  rw [toNat_withSign h]; split <;> omega

theorem signBit_withSign {neg : Bool} {mag : Nat} (h : mag < 2 ^ 31) : signBit (withSign neg mag) = neg := by
  rw [signBit_eq, toNat_withSign h]
  cases neg
  · simp; omega
  · simp

/-- A lane is its sign and its magnitude bits. -/
theorem eq_withSign (b : W32) : b = withSign (signBit b) (b.toNat % 2 ^ 31) := by
  have := b.isLt
  apply BitVec.eq_of_toNat_eq
  rw [toNat_withSign (by omega), signBit_eq]
  by_cases h : 2 ^ 31 ≤ b.toNat
  · simp only [h, decide_true, if_true]; omega
  · simp only [h, decide_false, Bool.false_eq_true, if_false]; omega

theorem withSign_getLsbD_zero {neg : Bool} {mag : Nat} (h : mag < 2 ^ 31) :
    (withSign neg mag).getLsbD 0 = decide (mag % 2 = 1) := by
  rw [BitVec.getLsbD, toNat_withSign h, Nat.testBit_zero]
  congr 1
  split
  · simp; omega
  · simp

/-! ### Values -/

/-- What `floatVal` says of each class (00_scope.md R11). -/
theorem floatVal_of_isFinite {b : W32} (h : isFinite b = true) : floatVal b = .finite (signBit b) (magUnits b) := by
  simp only [isFinite, decide_eq_true_eq] at h
  simp [floatVal, show expField b ≠ 0xFF by omega]

theorem floatVal_of_isNaN {b : W32} (h : isNaN b = true) : floatVal b = .nan := by
  simp only [isNaN, Bool.and_eq_true, beq_iff_eq, bne_iff_ne] at h
  simp [floatVal, h.1, h.2]

theorem floatVal_of_isInf {b : W32} (h : isInf b = true) : floatVal b = .inf (signBit b) := by
  simp only [isInf, Bool.and_eq_true, beq_iff_eq] at h
  simp [floatVal, h.1, h.2]

theorem isFinite_of_floatVal {b : W32} {n : Bool} {u : Nat} (h : floatVal b = .finite n u) : isFinite b = true := by
  unfold floatVal at h
  split at h
  · split at h <;> cases h
  · next h1 =>
    have := (b.extractLsb' 23 8).isLt
    simp only [isFinite, decide_eq_true_eq]
    unfold expField at *
    omega

/-- `-m` or `m` of one magnitude. -/
theorem natAbs_signedOf (neg : Bool) (m : Nat) : (signedOf neg m).natAbs = m := by
  cases neg <;> simp [signedOf]

theorem signedUnits_withSign {neg : Bool} {mag : Nat} (h : mag < 2 ^ 31) :
    signedUnits (withSign neg mag) = signedOf neg (unitsOf mag) := by
  rw [signedUnits, signBit_withSign h, magUnits_eq, toNat_withSign_mod h]

/-- The encoding of `q * 2^j` units, also for a subnormal (`j = 0`) and after a carry into the next binade. -/
theorem unitsOf_encoding {j q : Nat} (hq : q ≤ 2 ^ 24) (hj : j = 0 ∨ 2 ^ 23 ≤ q) :
    unitsOf (j * 2 ^ 23 + q) = q * 2 ^ j := by
  unfold unitsOf
  rcases Nat.lt_or_ge q (2 ^ 23) with h1 | h1
  · obtain rfl : j = 0 := by omega
    rw [if_pos (by omega)]
    simp; omega
  · rcases Nat.lt_or_ge q (2 ^ 24) with h2 | h2
    · rw [if_neg (by omega), show (j * 2 ^ 23 + q) / 2 ^ 23 - 1 = j by omega,
        show 2 ^ 23 + (j * 2 ^ 23 + q) % 2 ^ 23 = q by omega]
    · obtain rfl : q = 2 ^ 24 := by omega
      rw [if_neg (by omega), show (j * 2 ^ 23 + 2 ^ 24) / 2 ^ 23 - 1 = j + 1 by omega,
        show (j * 2 ^ 23 + 2 ^ 24) % 2 ^ 23 = 0 by omega, Nat.pow_succ]
      omega

/-- A magnitude of at least `2^(23+j)` units is a multiple of `2^j`. -/
theorem unitsOf_dvd_or_lt (g j : Nat) : 2 ^ j ∣ unitsOf g ∨ unitsOf g < 2 ^ (23 + j) := by
  unfold unitsOf
  split
  · right
    have : 2 ^ 23 ≤ 2 ^ (23 + j) := Nat.pow_le_pow_right (by omega) (by omega)
    omega
  · rcases Nat.lt_or_ge (g / 2 ^ 23 - 1) j with h | h
    · right
      calc (2 ^ 23 + g % 2 ^ 23) * 2 ^ (g / 2 ^ 23 - 1)
          < 2 ^ 24 * 2 ^ (g / 2 ^ 23 - 1) := Nat.mul_lt_mul_of_pos_right (by omega) (by positivity)
        _ = 2 ^ (24 + (g / 2 ^ 23 - 1)) := (Nat.pow_add ..).symm
        _ ≤ 2 ^ (23 + j) := Nat.pow_le_pow_right (by omega) (by omega)
    · left
      exact Dvd.dvd.mul_left (Nat.pow_dvd_pow 2 h) _

/-! ### Rounding -/

/-- `divPow2RNE m d` is within half of `m / 2^d`, and even when exactly half away. -/
theorem divPow2RNE_spec (m d : Nat) :
    2 * ((divPow2RNE m d : Int) * 2 ^ d - m).natAbs ≤ 2 ^ d ∧
      (2 * ((divPow2RNE m d : Int) * 2 ^ d - m).natAbs = 2 ^ d → divPow2RNE m d % 2 = 0) := by
  have hm := Nat.div_add_mod m (2 ^ d)
  have hr := Nat.mod_lt m (show 0 < 2 ^ d by positivity)
  have hc : ((2 ^ d : Nat) : Int) = 2 ^ d := by push_cast; rfl
  unfold divPow2RNE
  simp only
  generalize m / 2 ^ d = q at *
  generalize m % 2 ^ d = r at *
  generalize hD : 2 ^ d = D at *
  rw [← hc]
  have hqD : ((q : Int) * (D : Int)) = ((D * q : Nat) : Int) := by push_cast; ring
  split
  · next h =>
    have e : (((q + 1 : Nat) : Int) * (D : Int) - m).natAbs = D - r := by
      push_cast; rw [add_mul, hqD]; omega
    rw [e]; omega
  · next h =>
    have e : ((q : Int) * (D : Int) - m).natAbs = r := by rw [hqD]; omega
    rw [e]; omega

/-- The quotient lies between the neighbouring integers. -/
theorem divPow2RNE_bounds (m d : Nat) : m / 2 ^ d ≤ divPow2RNE m d ∧ divPow2RNE m d ≤ m / 2 ^ d + 1 := by
  unfold divPow2RNE; simp only; split <;> omega

/-- An integer within half of `m / D` is nearest to it among the integers, and only a tie has two nearest. -/
theorem nearest_int {q m D : Int} (h : 2 * (q * D - m).natAbs ≤ D.natAbs) (c : Int) :
    (q * D - m).natAbs ≤ (c * D - m).natAbs ∧
      ((q * D - m).natAbs = (c * D - m).natAbs → c ≠ q → 2 * (q * D - m).natAbs = D.natAbs) := by
  rcases eq_or_ne c q with rfl | hne
  · exact ⟨le_rfl, fun _ h => absurd rfl h⟩
  · have hcd : D.natAbs ≤ (c * D - q * D).natAbs := by
      rw [← sub_mul, Int.natAbs_mul]
      exact Nat.le_mul_of_pos_left _ (by omega)
    omega

/-- The overflow threshold `2^128 - 2^103` in units (45_exp.md R117, K7). -/
def overflowUnits : Nat := 2 ^ 277 - 2 ^ 252

/-- The parts of `roundUnits`: the multiple `q * 2^j` of units it picks, before overflow. -/
theorem roundUnits_parts (m k : Nat) :
    let d := dropBits m k
    k ≤ d ∧ divPow2RNE m d ≤ 2 ^ 24 ∧ (d - k = 0 ∨ (2 ^ (23 + d) ≤ m ∧ 2 ^ 23 ≤ divPow2RNE m d)) := by
  intro d
  have hb := divPow2RNE_bounds m d
  have hk : k ≤ d := le_max_left _ _
  refine ⟨hk, ?_, ?_⟩
  · have h1 : m < 2 ^ (m.log2 + 1) := Nat.lt_log2_self
    have h2 : m.log2 - 23 ≤ d := le_max_right _ _
    have h3 : m < 2 ^ 24 * 2 ^ d := by
      rw [← Nat.pow_add]
      exact h1.trans_le (Nat.pow_le_pow_right (by omega) (by omega))
    have h4 : m / 2 ^ d < 2 ^ 24 := Nat.div_lt_of_lt_mul (by rw [Nat.mul_comm]; exact h3)
    omega
  · rcases Nat.eq_zero_or_pos (d - k) with h | h
    · exact .inl h
    · right
      have hd : d = m.log2 - 23 := by
        have : d = max k (m.log2 - 23) := rfl
        omega
      have hm : m ≠ 0 := by
        rintro rfl
        simp at hd
        omega
      have h1 : 2 ^ (23 + d) ≤ m := by
        have := Nat.log2_self_le hm
        rwa [show 23 + d = m.log2 by omega]
      refine ⟨h1, le_trans ?_ hb.1⟩
      rw [Nat.le_div_iff_mul_le (by positivity), ← Nat.pow_add]
      exact h1

/-- In the top binade the rounded significand `q` carries out exactly from `2^25 - 1` halves of its last place on. -/
theorem carry_iff {E q r m : Nat} (hm : 2 * E * q + r = m) (hr : r < 2 * E) (hq : q < 2 ^ 24) :
    253 * 2 ^ 23 + (if 2 * E < 2 * r ∨ 2 * r = 2 * E ∧ q % 2 = 1 then q + 1 else q) < 0x7F800000 ↔
      m < (2 ^ 25 - 1) * E := by
  rcases Nat.lt_or_ge q (2 ^ 24 - 1) with hlt | hge
  · have h1 : 2 * E * q ≤ 2 * E * (2 ^ 24 - 2) := Nat.mul_le_mul_left _ (by omega)
    refine ⟨fun _ => by omega, fun _ => ?_⟩
    split <;> omega
  · obtain rfl : q = 2 ^ 24 - 1 := by omega
    split <;> omega

/-- `roundUnits` overflows exactly from the threshold on. -/
theorem roundUnits_mag_lt_iff (m k : Nat) :
    (dropBits m k - k) * 2 ^ 23 + divPow2RNE m (dropBits m k) < 0x7F800000 ↔ m < overflowUnits * 2 ^ k := by
  have hp := roundUnits_parts m k
  simp only at hp
  have hs := divPow2RNE_spec m (dropBits m k)
  have hb := divPow2RNE_bounds m (dropBits m k)
  have hmm := Nat.div_add_mod m (2 ^ dropBits m k)
  have hrl := Nat.mod_lt m (show 0 < 2 ^ dropBits m k by positivity)
  have hq0 : m < 2 ^ 24 * 2 ^ dropBits m k := by
    rw [← Nat.pow_add]
    exact Nat.lt_log2_self.trans_le (Nat.pow_le_pow_right (by omega) (by unfold dropBits; omega))
  obtain ⟨hk, hq, hj⟩ := hp
  generalize dropBits m k = d at *
  obtain ⟨j, rfl⟩ := Nat.exists_eq_add_of_le hk
  rw [show k + j - k = j by omega] at *
  have ht : overflowUnits * 2 ^ k = (2 ^ 25 - 1) * 2 ^ (252 + k) := by
    unfold overflowUnits
    rw [show 277 = 25 + 252 from rfl, Nat.pow_add 2 25 252, Nat.pow_add 2 252 k, ← Nat.mul_assoc, Nat.sub_mul, Nat.sub_mul,
      Nat.sub_mul, Nat.one_mul]
  rw [ht]
  rcases Nat.lt_trichotomy j 253 with h | h | h
  · have h1 : j * 2 ^ 23 + divPow2RNE m (k + j) < 0x7F800000 := by omega
    have h2 : m < (2 ^ 25 - 1) * 2 ^ (252 + k) := by
      calc m < 2 ^ 24 * 2 ^ (k + j) := hq0
        _ ≤ 2 ^ 24 * 2 ^ (252 + k) := Nat.mul_le_mul_left _ (Nat.pow_le_pow_right (by omega) (by omega))
        _ ≤ (2 ^ 25 - 1) * 2 ^ (252 + k) := Nat.mul_le_mul_right _ (by norm_num)
    exact ⟨fun _ => h2, fun _ => h1⟩
  · subst h
    have hpow : 2 ^ (k + 253) = 2 * 2 ^ (252 + k) := by
      rw [show k + 253 = (252 + k) + 1 by omega, Nat.pow_succ, Nat.mul_comm]
    unfold divPow2RNE
    simp only
    rw [hpow] at hmm hrl hq0 ⊢
    exact carry_iff hmm hrl (Nat.div_lt_of_lt_mul (by rw [Nat.mul_comm]; exact hq0))
  · have h1 : ¬ j * 2 ^ 23 + divPow2RNE m (k + j) < 0x7F800000 := by omega
    have h2 : ¬ m < (2 ^ 25 - 1) * 2 ^ (252 + k) := by
      rw [not_lt]
      calc (2 ^ 25 - 1) * 2 ^ (252 + k) ≤ 2 ^ 25 * 2 ^ (252 + k) := Nat.mul_le_mul_right _ (by norm_num)
        _ = 2 ^ (25 + (252 + k)) := (Nat.pow_add ..).symm
        _ ≤ 2 ^ (23 + (k + j)) := Nat.pow_le_pow_right (by omega) (by omega)
        _ ≤ m := by omega
    exact ⟨fun h => absurd h h1, fun h => absurd h h2⟩

/-- From the threshold on, `roundUnits` gives the infinity of its sign. -/
theorem roundUnits_of_overflow {m k : Nat} (neg : Bool) (h : overflowUnits * 2 ^ k ≤ m) :
    roundUnits neg m k = infBits neg := by
  unfold roundUnits
  simp only
  rw [if_neg]
  rw [roundUnits_mag_lt_iff]
  omega

/-- Below the threshold, `roundUnits` gives the multiple of units it picked, with its sign. -/
theorem roundUnits_of_lt {m k : Nat} (neg : Bool) (h : m < overflowUnits * 2 ^ k) :
    roundUnits neg m k = withSign neg ((dropBits m k - k) * 2 ^ 23 + divPow2RNE m (dropBits m k)) ∧
      (dropBits m k - k) * 2 ^ 23 + divPow2RNE m (dropBits m k) < 0x7F800000 := by
  have hm := (roundUnits_mag_lt_iff m k).2 h
  unfold roundUnits
  simp only
  exact ⟨if_pos hm, hm⟩

/-- THE specification of rounding (00_scope.md R12): below the overflow threshold the result is finite, has the sign
given, and no finite float32 is nearer to the exact value `± m / 2^k` units; of two nearest it has the even last bit. -/
theorem roundUnits_nearest {m k : Nat} (neg : Bool) (h : m < overflowUnits * 2 ^ k) :
    isFinite (roundUnits neg m k) = true ∧ signBit (roundUnits neg m k) = neg ∧
    ∀ z : W32,
      (signedUnits (roundUnits neg m k) * 2 ^ k - signedOf neg m).natAbs ≤
          (signedUnits z * 2 ^ k - signedOf neg m).natAbs ∧
        ((signedUnits (roundUnits neg m k) * 2 ^ k - signedOf neg m).natAbs =
            (signedUnits z * 2 ^ k - signedOf neg m).natAbs →
          signedUnits z ≠ signedUnits (roundUnits neg m k) → (roundUnits neg m k).getLsbD 0 = false) := by
  obtain ⟨hr, hlt⟩ := roundUnits_of_lt neg h
  obtain ⟨hk, hq, hj⟩ := roundUnits_parts m k
  have hs := divPow2RNE_spec m (dropBits m k)
  rw [hr]
  have h31 : (dropBits m k - k) * 2 ^ 23 + divPow2RNE m (dropBits m k) < 2 ^ 31 := by omega
  refine ⟨(isFinite_iff _).2 (by rw [toNat_withSign_mod h31]; exact hlt), signBit_withSign h31, ?_⟩
  intro z
  rw [signedUnits_withSign h31, withSign_getLsbD_zero h31,
    unitsOf_encoding hq (hj.imp id And.right)]
  clear hr hlt h31
  generalize dropBits m k = d at *
  obtain ⟨j, rfl⟩ := Nat.exists_eq_add_of_le hk
  rw [show k + j - k = j by omega] at *
  set q := divPow2RNE m (k + j) with hqdef
  -- reduce to a non-negative target: compare the integer `w`, the value of `z` seen from the side of the sign
  obtain ⟨w, hw, hwu⟩ : ∃ w : Int, signedUnits z = (if neg then -w else w) ∧ w.natAbs = unitsOf (z.toNat % 2 ^ 31) := by
    refine ⟨if neg then -signedUnits z else signedUnits z, by split <;> simp, ?_⟩
    rw [← magUnits_eq, ← natAbs_signedOf (signBit z) (magUnits z)]
    split <;> simp [signedUnits]
  have hflip : ∀ x : Int, ((if neg then -x else x) * 2 ^ k - signedOf neg m).natAbs = (x * 2 ^ k - m).natAbs := by
    intro x
    cases neg
    · simp [signedOf]
    · simp only [if_true, signedOf]
      rw [show -x * 2 ^ k - -(m : Int) = -(x * 2 ^ k - m) by ring, Int.natAbs_neg]
  have hself : signedOf neg (q * 2 ^ j) = (if neg then -((q : Int) * 2 ^ j) else (q : Int) * 2 ^ j) := by
    cases neg <;> simp [signedOf]
  have hneq : (if neg then -w else w) ≠ (if neg then -((q : Int) * 2 ^ j) else (q : Int) * 2 ^ j) ↔
      w ≠ (q : Int) * 2 ^ j := by cases neg <;> simp
  rw [hw, hself, hflip, hflip, hneq]
  have hqd : (q : Int) * 2 ^ j * 2 ^ k = q * 2 ^ (k + j) := by rw [mul_assoc, ← pow_add, add_comm j k]
  rw [hqd]
  have hDabs : ((2 : Int) ^ (k + j)).natAbs = 2 ^ (k + j) := by simp [Int.natAbs_pow]
  have hnear := fun c => nearest_int (c := c) (q := (q : Int)) (m := (m : Int)) (D := 2 ^ (k + j)) (by rw [hDabs]; exact hs.1)
  have hev : (2 * ((q : Int) * 2 ^ (k + j) - m).natAbs = 2 ^ (k + j) → decide ((j * 2 ^ 23 + q) % 2 = 1) = false) := by
    intro h
    have := hs.2 h
    apply decide_eq_false
    omega
  rcases unitsOf_dvd_or_lt (z.toNat % 2 ^ 31) j with hdvd | hsmall
  · obtain ⟨c, rfl⟩ : ∃ c, w = c * 2 ^ j := by
      have : (2 : Int) ^ j ∣ w := by
        rw [← Int.natAbs_dvd_natAbs, hwu, Int.natAbs_pow]; exact hdvd
      obtain ⟨c, hc⟩ := this
      exact ⟨c, by rw [hc, mul_comm]⟩
    rw [mul_assoc, ← pow_add, add_comm j k]
    refine ⟨(hnear c).1, fun he hne => hev ?_⟩
    rw [← hDabs]
    exact (hnear c).2 he (by rintro rfl; exact hne rfl)
  · rcases hj with rfl | ⟨hmge, -⟩
    · -- every number of units is a multiple of one unit
      simp only [pow_zero, mul_one, Nat.add_zero] at *
      refine ⟨(hnear w).1, fun he hne => hev ?_⟩
      rw [← hDabs]
      exact (hnear w).2 he hne
    · have h0 := (hnear (2 ^ 23)).1
      have hp : (2 : Int) ^ 23 * 2 ^ (k + j) = ((2 ^ (23 + (k + j)) : Nat) : Int) := by push_cast; rw [pow_add 2 23]; norm_num
      rw [hp] at h0
      have hws : (w * 2 ^ k).natAbs < 2 ^ (23 + (k + j)) := by
        rw [Int.natAbs_mul, hwu, Int.natAbs_pow]
        calc unitsOf (z.toNat % 2 ^ 31) * Int.natAbs 2 ^ k < 2 ^ (23 + j) * 2 ^ k :=
              Nat.mul_lt_mul_of_pos_right hsmall (by positivity)
          _ = 2 ^ (23 + (k + j)) := by rw [← Nat.pow_add]; congr 1; omega
      generalize w * 2 ^ k = W at *
      generalize 2 ^ (23 + (k + j)) = T at *
      constructor
      · omega
      · intro he; omega

/-! ### The primitives -/

theorem fadd32_comm (nan x y : W32) : fadd32 nan x y = fadd32 nan y x := by
  unfold fadd32
  cases floatVal x with
  | nan => cases floatVal y <;> rfl
  | inf a => cases floatVal y with
    | inf b => by_cases h : a = b <;> simp [h, eq_comm]
    | _ => rfl
  | finite a m => cases floatVal y with
    | finite b k => simp [Int.add_comm, Bool.and_comm]
    | _ => rfl

/-- The sum of finite lanes is the exact sum of their units, rounded once. -/
theorem fadd32_of_isFinite {nan x y : W32} (hx : isFinite x = true) (hy : isFinite y = true) :
    fadd32 nan x y =
      if signedUnits x + signedUnits y = 0 then withSign (signBit x && signBit y) 0
      else roundUnits (signedUnits x + signedUnits y < 0) (signedUnits x + signedUnits y).natAbs 0 := by
  unfold fadd32
  rw [floatVal_of_isFinite hx, floatVal_of_isFinite hy]
  rfl

/-- The product of finite lanes is the exact product of their units, rounded once. -/
theorem fmul32_of_isFinite {nan x y : W32} (hx : isFinite x = true) (hy : isFinite y = true) :
    fmul32 nan x y = roundUnits (signBit x ^^ signBit y) (magUnits x * magUnits y) 149 := by
  unfold fmul32
  rw [floatVal_of_isFinite hx, floatVal_of_isFinite hy]

/-- A sum of two given finite lanes, for any `NAN_OUT`. -/
theorem fadd32_lit {nan x y z : W32} (h : (isFinite x && isFinite y && fadd32 0 x y == z) = true) :
    fadd32 nan x y = z := by
  simp only [Bool.and_eq_true, beq_iff_eq] at h
  rw [fadd32_of_isFinite h.1.1 h.1.2, ← fadd32_of_isFinite (nan := 0) h.1.1 h.1.2, h.2]

/-- A product of two given finite lanes, for any `NAN_OUT`. -/
theorem fmul32_lit {nan x y z : W32} (h : (isFinite x && isFinite y && fmul32 0 x y == z) = true) :
    fmul32 nan x y = z := by
  simp only [Bool.and_eq_true, beq_iff_eq] at h
  rw [fmul32_of_isFinite h.1.1 h.1.2, ← fmul32_of_isFinite (nan := 0) h.1.1 h.1.2, h.2]

/-- The fraction of a lane by mask and by field (44_log.md R106). -/
theorem and_fracMask (x : W32) : x &&& 0x007FFFFF#32 = (0#9 ++ x.extractLsb' 0 23 : BitVec 32) := by
  apply BitVec.eq_of_toNat_eq
  rw [BitVec.toNat_append, BitVec.toNat_and]
  simp
  exact Nat.and_two_pow_sub_one_eq_mod x.toNat 23

end Sys2Proof.Machine
end

