-- ==== Sys2Proof/Laws/Lanes.lean ====
section
/-! SUPPORT. Lanes bit by bit, packing and unpacking, the masks of read operands, and the maximum over lanes. -/

namespace Sys2Proof.Machine

theorem getLsbD_lane {n w : Nat} (v : BitVec n) (k i : Nat) (h : i < w) :
    (lane w v k).getLsbD i = v.getLsbD (w * k + i) := by
  simp only [lane, BitVec.getLsbD_extractLsb', h, decide_true, Bool.true_and]

/-- A packed value bit by bit. -/
theorem getLsbD_pack32 (l0 l1 l2 l3 : W32) (i : Nat) :
    (pack32 l0 l1 l2 l3).getLsbD i =
      if i < 32 then l0.getLsbD i else if i < 64 then l1.getLsbD (i - 32)
      else if i < 96 then l2.getLsbD (i - 64) else l3.getLsbD (i - 96) := by
  simp only [pack32, BitVec.getLsbD_append]
  split_ifs <;> first
    | rfl
    | omega

@[simp] theorem lane_pack32_0 (l0 l1 l2 l3 : W32) : lane 32 (pack32 l0 l1 l2 l3) 0 = l0 := by
  apply BitVec.eq_of_getLsbD_eq
  intro i hi
  rw [getLsbD_lane _ _ _ hi, getLsbD_pack32, if_pos (by omega)]
  congr 1; omega

@[simp] theorem lane_pack32_1 (l0 l1 l2 l3 : W32) : lane 32 (pack32 l0 l1 l2 l3) 1 = l1 := by
  apply BitVec.eq_of_getLsbD_eq
  intro i hi
  rw [getLsbD_lane _ _ _ hi, getLsbD_pack32, if_neg (by omega), if_pos (by omega)]
  congr 1; omega

@[simp] theorem lane_pack32_2 (l0 l1 l2 l3 : W32) : lane 32 (pack32 l0 l1 l2 l3) 2 = l2 := by
  apply BitVec.eq_of_getLsbD_eq
  intro i hi
  rw [getLsbD_lane _ _ _ hi, getLsbD_pack32, if_neg (by omega), if_neg (by omega), if_pos (by omega)]
  congr 1; omega

@[simp] theorem lane_pack32_3 (l0 l1 l2 l3 : W32) : lane 32 (pack32 l0 l1 l2 l3) 3 = l3 := by
  apply BitVec.eq_of_getLsbD_eq
  intro i hi
  rw [getLsbD_lane _ _ _ hi, getLsbD_pack32, if_neg (by omega), if_neg (by omega), if_neg (by omega)]
  congr 1; omega

/-- Unpacking and packing again gives the value back. -/
theorem pack32_lanes (v : V128) : pack32 (lane 32 v 0) (lane 32 v 1) (lane 32 v 2) (lane 32 v 3) = v := by
  apply BitVec.eq_of_getLsbD_eq
  intro i hi
  rw [getLsbD_pack32]
  split
  · rw [getLsbD_lane _ _ _ (by omega)]; congr 1; omega
  split
  · rw [getLsbD_lane _ _ _ (by omega)]; congr 1; omega
  split
  · rw [getLsbD_lane _ _ _ (by omega)]; congr 1; omega
  · rw [getLsbD_lane _ _ _ (by omega)]; congr 1; omega

/-- Two packed values are equal exactly when their lanes are. -/
theorem pack32_inj (a b c d a' b' c' d' : W32) :
    pack32 a b c d = pack32 a' b' c' d' ↔ a = a' ∧ b = b' ∧ c = c' ∧ d = d' := by
  constructor
  · intro h
    refine ⟨?_, ?_, ?_, ?_⟩
    · simpa using congrArg (fun v => lane 32 v 0) h
    · simpa using congrArg (fun v => lane 32 v 1) h
    · simpa using congrArg (fun v => lane 32 v 2) h
    · simpa using congrArg (fun v => lane 32 v 3) h
  · rintro ⟨rfl, rfl, rfl, rfl⟩; rfl

/-- Zero-extension is concatenation with zeros above (00_scope.md R10). -/
theorem setWidth_eq_zero_append {n m : Nat} (x : BitVec n) : x.setWidth (m + n) = 0#m ++ x := by
  apply BitVec.eq_of_getLsbD_eq
  intro i hi
  simp only [BitVec.getLsbD_setWidth, BitVec.getLsbD_append, hi, decide_true, Bool.true_and]
  by_cases h : i < n
  · simp [h]
  · simp [h, BitVec.getLsbD_of_ge x i (by omega)]

/-- The V64 on a port: the low half, zeros above (40_view.md R75). -/
theorem ofHalf_toHalf (v : V128) : ofHalf (toHalf v) = 0#64 ++ v.extractLsb' 0 64 := by
  exact setWidth_eq_zero_append (m := 64) (toHalf v)

theorem getLsbD_lowHalfBits : ∀ i < 64, lowHalfBits.getLsbD i = true := by decide

theorem getLsbD_lane0Bits : ∀ i < 32, lane0Bits.getLsbD i = true := by decide

/-- The bits a V64 view reads fix the V64 (40_view.md R75). -/
theorem toHalf_and_lowHalfBits (v : V128) : toHalf (v &&& lowHalfBits) = toHalf v := by
  apply BitVec.eq_of_getLsbD_eq
  intro i hi
  simp only [toHalf, BitVec.getLsbD_setWidth, BitVec.getLsbD_and, getLsbD_lowHalfBits i hi, Bool.and_true]

/-- The bits a shift reads of `B` fix its lane 0 (43_shift.md R95, R96). -/
theorem lane_and_lane0Bits (v : V128) : lane 32 (v &&& lane0Bits) 0 = lane 32 v 0 := by
  apply BitVec.eq_of_getLsbD_eq
  intro i hi
  simp only [lane, BitVec.getLsbD_extractLsb', BitVec.getLsbD_and, Nat.mul_zero, Nat.zero_add,
    getLsbD_lane0Bits i hi, Bool.and_true]

theorem and_allBits (v : V128) : v &&& allBits = v := BitVec.and_allOnes

/-- `maxUpTo x n` is one of `x 0`, ..., `x n` and none is larger. -/
theorem maxUpTo_spec (x : Nat → Int) (n : Nat) : (∃ k ≤ n, maxUpTo x n = x k) ∧ ∀ k ≤ n, x k ≤ maxUpTo x n := by
  induction n with
  | zero =>
    refine ⟨⟨0, le_rfl, rfl⟩, ?_⟩
    intro k hk
    rw [Nat.le_zero.1 hk, maxUpTo]
  | succ n ih =>
    obtain ⟨⟨k, hk, hx⟩, h2⟩ := ih
    rw [maxUpTo]
    constructor
    · rcases le_total (maxUpTo x n) (x (n + 1)) with h | h
      · exact ⟨n + 1, le_rfl, max_eq_right h⟩
      · exact ⟨k, by omega, by rw [max_eq_left h, hx]⟩
    · intro j hj
      rcases Nat.lt_or_ge j (n + 1) with h | h
      · exact (h2 j (by omega)).trans (le_max_left _ _)
      · rw [show j = n + 1 by omega]
        exact le_max_right _ _

theorem not_getLsbD_lowHalfBits : ∀ i < 128, 64 ≤ i → lowHalfBits.getLsbD i = false := by decide
theorem not_getLsbD_lane0Bits : ∀ i < 128, 32 ≤ i → lane0Bits.getLsbD i = false := by decide

/-- Two values agree on the bits of a mask of ones below `w` exactly when their low `w` bits are equal. -/
theorem and_mask_eq_iff {mask : V128} {w : Nat} (h1 : ∀ i < w, mask.getLsbD i = true)
    (h0 : ∀ i < 128, w ≤ i → mask.getLsbD i = false) (x y : V128) :
    x &&& mask = y &&& mask ↔ x.extractLsb' 0 w = y.extractLsb' 0 w := by
  constructor
  · intro h
    apply BitVec.eq_of_getLsbD_eq
    intro i hi
    have := congrArg (fun z : V128 => z.getLsbD i) h
    simpa [hi, h1 i hi] using this
  · intro h
    apply BitVec.eq_of_getLsbD_eq
    intro i hi
    rcases Nat.lt_or_ge i w with hlt | hge
    · have := congrArg (fun z : BitVec w => z.getLsbD i) h
      simp only [BitVec.getLsbD_extractLsb', hlt, decide_true, Bool.true_and, Nat.zero_add] at this
      simp [this]
    · simp [h0 i hi hge]

theorem and_lowHalfBits_eq_iff (x y : V128) :
    x &&& lowHalfBits = y &&& lowHalfBits ↔ x.extractLsb' 0 64 = y.extractLsb' 0 64 :=
  and_mask_eq_iff getLsbD_lowHalfBits not_getLsbD_lowHalfBits x y

theorem and_lane0Bits_eq_iff (x y : V128) :
    x &&& lane0Bits = y &&& lane0Bits ↔ x.extractLsb' 0 32 = y.extractLsb' 0 32 :=
  and_mask_eq_iff getLsbD_lane0Bits not_getLsbD_lane0Bits x y

/-- A lane of the V64 in the low half of a port is the same lane of the port (40_view.md R75). -/
theorem lane_toHalf {w k : Nat} (v : V128) (h : w * (k + 1) ≤ 64) : lane w (toHalf v) k = lane w v k := by
  apply BitVec.eq_of_getLsbD_eq
  intro i hi
  have : w * k + i < 64 := by rw [Nat.mul_add] at h; omega
  simp [lane, toHalf, this, hi]

/-- `mapLanes32` maps each of the four lanes. -/
theorem lane_mapLanes32 (f : W32 → W32) (v : V128) {k : Nat} (h : k < 4) :
    lane 32 (mapLanes32 f v) k = f (lane 32 v k) := by
  unfold mapLanes32
  obtain rfl | rfl | rfl | rfl : k = 0 ∨ k = 1 ∨ k = 2 ∨ k = 3 := by omega
  all_goals simp

end Sys2Proof.Machine
end

