-- ==== Sys2Proof/Laws/State.lean ====
section
/-! SUPPORT. One lemma per field of State per update, true by `rfl`, so that no proof unfolds a record update. -/

namespace Sys2Proof.Machine

@[simp] theorem respond_cfg (l : Nat) (r : Response) (s : State) : (respond l r s).cfg = s.cfg := rfl
@[simp] theorem respond_queue (l : Nat) (r : Response) (s : State) : (respond l r s).queue = s.queue ++ [⟨r, l⟩] := rfl
@[simp] theorem respond_inReset (l : Nat) (r : Response) (s : State) : (respond l r s).inReset = s.inReset := rfl
@[simp] theorem respond_port (l : Nat) (r : Response) (s : State) : (respond l r s).port = s.port := rfl
@[simp] theorem respond_hold (l : Nat) (r : Response) (s : State) : (respond l r s).hold = s.hold := rfl
@[simp] theorem respond_stalled (l : Nat) (r : Response) (s : State) : (respond l r s).stalled = s.stalled := rfl
@[simp] theorem respond_resetHeld (l : Nat) (r : Response) (s : State) : (respond l r s).resetHeld = s.resetHeld := rfl
@[simp] theorem respond_script (l : Nat) (r : Response) (s : State) : (respond l r s).script = s.script := rfl
@[simp] theorem respond_received (l : Nat) (r : Response) (s : State) : (respond l r s).received = s.received := rfl
@[simp] theorem respond_tick (l : Nat) (r : Response) (s : State) : (respond l r s).tick = s.tick := rfl

@[simp] theorem takeIllegal_cfg (s : State) : (takeIllegal s).cfg = s.cfg := rfl
@[simp] theorem takeIllegal_queue (s : State) : (takeIllegal s).queue = s.queue ++ [⟨illegalResponse, s.cfg.lat.illegal⟩] := rfl
@[simp] theorem takeIllegal_inReset (s : State) : (takeIllegal s).inReset = s.inReset := rfl
@[simp] theorem takeIllegal_port (s : State) : (takeIllegal s).port = s.port := rfl
@[simp] theorem takeIllegal_hold (s : State) : (takeIllegal s).hold = s.hold := rfl
@[simp] theorem takeIllegal_stalled (s : State) : (takeIllegal s).stalled = s.stalled := rfl
@[simp] theorem takeIllegal_resetHeld (s : State) : (takeIllegal s).resetHeld = s.resetHeld := rfl
@[simp] theorem takeIllegal_script (s : State) : (takeIllegal s).script = s.script := rfl
@[simp] theorem takeIllegal_received (s : State) : (takeIllegal s).received = s.received := rfl
@[simp] theorem takeIllegal_tick (s : State) : (takeIllegal s).tick = s.tick := rfl

@[simp] theorem closeEdge_cfg (s t : State) : (closeEdge s t).cfg = t.cfg := rfl
@[simp] theorem closeEdge_queue (s t : State) : (closeEdge s t).queue = (if rspTaken s then t.queue.tail else t.queue).map Entry.age := rfl
@[simp] theorem closeEdge_inReset (s t : State) : (closeEdge s t).inReset = t.inReset := rfl
@[simp] theorem closeEdge_port (s t : State) : (closeEdge s t).port = t.port := rfl
@[simp] theorem closeEdge_hold (s t : State) : (closeEdge s t).hold = t.hold := rfl
@[simp] theorem closeEdge_stalled (s t : State) : (closeEdge s t).stalled = if running s && hasRoom s && holdsReady s then t.stalled + 1 else 0 := rfl
@[simp] theorem closeEdge_resetHeld (s t : State) : (closeEdge s t).resetHeld = t.resetHeld := rfl
@[simp] theorem closeEdge_script (s t : State) : (closeEdge s t).script = t.script := rfl
@[simp] theorem closeEdge_received (s t : State) : (closeEdge s t).received = if rspTaken s then t.received ++ [rspOut s] else t.received := rfl
@[simp] theorem closeEdge_tick (s t : State) : (closeEdge s t).tick = t.tick := rfl

@[simp] theorem resetEdge_cfg (s : State) : (resetEdge s).cfg = s.cfg := rfl
@[simp] theorem resetEdge_queue (s : State) : (resetEdge s).queue = [] := rfl
@[simp] theorem resetEdge_inReset (s : State) : (resetEdge s).inReset = true := rfl
@[simp] theorem resetEdge_port (s : State) : (resetEdge s).port = s.port := rfl
@[simp] theorem resetEdge_hold (s : State) : (resetEdge s).hold = s.hold := rfl
@[simp] theorem resetEdge_stalled (s : State) : (resetEdge s).stalled = 0 := rfl
@[simp] theorem resetEdge_resetHeld (s : State) : (resetEdge s).resetHeld = s.resetHeld + 1 := rfl
@[simp] theorem resetEdge_script (s : State) : (resetEdge s).script = s.script := rfl
@[simp] theorem resetEdge_received (s : State) : (resetEdge s).received = s.received := rfl
@[simp] theorem resetEdge_tick (s : State) : (resetEdge s).tick = s.tick := rfl

@[simp] theorem enterCycle_cfg (c : Cycle) (s : State) : (enterCycle c s).cfg = s.cfg := rfl
@[simp] theorem enterCycle_queue (c : Cycle) (s : State) : (enterCycle c s).queue = s.queue := rfl
@[simp] theorem enterCycle_inReset (c : Cycle) (s : State) : (enterCycle c s).inReset = (s.inReset && c.port.rst) := rfl
@[simp] theorem enterCycle_port (c : Cycle) (s : State) : (enterCycle c s).port = c.port := rfl
@[simp] theorem enterCycle_hold (c : Cycle) (s : State) : (enterCycle c s).hold = c.hold := rfl
@[simp] theorem enterCycle_stalled (c : Cycle) (s : State) : (enterCycle c s).stalled = s.stalled := rfl
@[simp] theorem enterCycle_resetHeld (c : Cycle) (s : State) : (enterCycle c s).resetHeld = if c.port.rst then s.resetHeld else 0 := rfl
@[simp] theorem enterCycle_script (c : Cycle) (s : State) : (enterCycle c s).script = s.script.tail := rfl
@[simp] theorem enterCycle_received (c : Cycle) (s : State) : (enterCycle c s).received = s.received := rfl
@[simp] theorem enterCycle_tick (c : Cycle) (s : State) : (enterCycle c s).tick = s.tick + 1 := rfl

@[simp] theorem offerWord_cfg (w : W32) (s : State) : (offerWord w s).cfg = s.cfg := rfl
@[simp] theorem offerWord_queue (w : W32) (s : State) : (offerWord w s).queue = s.queue.take (s.cfg.inflightMax - 1) := rfl
@[simp] theorem offerWord_inReset (w : W32) (s : State) : (offerWord w s).inReset = false := rfl
@[simp] theorem offerWord_port (w : W32) (s : State) : (offerWord w s).port = { s.port with rst := false, cmdValid := true, cmdWord := w } := rfl
@[simp] theorem offerWord_hold (w : W32) (s : State) : (offerWord w s).hold = false := rfl
@[simp] theorem offerWord_stalled (w : W32) (s : State) : (offerWord w s).stalled = s.stalled := rfl
@[simp] theorem offerWord_resetHeld (w : W32) (s : State) : (offerWord w s).resetHeld = 0 := rfl
@[simp] theorem offerWord_script (w : W32) (s : State) : (offerWord w s).script = s.script := rfl
@[simp] theorem offerWord_received (w : W32) (s : State) : (offerWord w s).received = s.received := rfl
@[simp] theorem offerWord_tick (w : W32) (s : State) : (offerWord w s).tick = s.tick := rfl

@[simp] theorem resetWith_cfg (c : Config) : (State.resetWith c).cfg = c := rfl
@[simp] theorem resetWith_queue (c : Config) : (State.resetWith c).queue = [] := rfl
@[simp] theorem resetWith_inReset (c : Config) : (State.resetWith c).inReset = false := rfl
@[simp] theorem resetWith_port (c : Config) : (State.resetWith c).port = Port.idle := rfl
@[simp] theorem resetWith_hold (c : Config) : (State.resetWith c).hold = false := rfl
@[simp] theorem resetWith_stalled (c : Config) : (State.resetWith c).stalled = 0 := rfl
@[simp] theorem resetWith_resetHeld (c : Config) : (State.resetWith c).resetHeld = 0 := rfl
@[simp] theorem resetWith_script (c : Config) : (State.resetWith c).script = [] := rfl
@[simp] theorem resetWith_received (c : Config) : (State.resetWith c).received = [] := rfl
@[simp] theorem resetWith_tick (c : Config) : (State.resetWith c).tick = 0 := rfl

end Sys2Proof.Machine
end

