-- ==== Sys2Proof/Laws/Ops.lean ====
section
/-! SUPPORT. One lemma per shared operation that says once what it can do: the meanings (`exec_eq_respond`), the command
side of an edge, the handshakes, the host's next cycle, and one inversion lemma for `step`. Proofs cite these. -/

namespace Sys2Proof.Machine

/-- Every command queues its response, with the latency of its kind, and does nothing else. -/
theorem exec_eq_respond (i : Instr) (s : State) :
    exec i s =
      .next (respond (latencyOf s.cfg.lat i) (responseOf s.cfg i s.port.cmdA s.port.cmdB s.port.cmdM) s) := by
  cases i <;> rfl

/-- The state after the command side of an edge. -/
def afterCommand (s : State) : State :=
  if cmdAccepted s then
    respond (latencyOfWord s.cfg.lat s.port.cmdWord)
      (execWord s.cfg s.port.cmdWord s.port.cmdA s.port.cmdB s.port.cmdM) s
  else s

theorem commandPhase_eq (s : State) : commandPhase s = .next (afterCommand s) := by
  unfold commandPhase afterCommand
  split
  · unfold latencyOfWord execWord
    cases h : decode s.port.cmdWord with
    | ok i => simp only [exec_eq_respond]
    | error r => rfl
  · rfl

@[simp] theorem afterCommand_cfg (s : State) : (afterCommand s).cfg = s.cfg := by unfold afterCommand; split <;> rfl
@[simp] theorem afterCommand_port (s : State) : (afterCommand s).port = s.port := by unfold afterCommand; split <;> rfl
@[simp] theorem afterCommand_inReset (s : State) : (afterCommand s).inReset = s.inReset := by
  unfold afterCommand; split <;> rfl
@[simp] theorem afterCommand_resetHeld (s : State) : (afterCommand s).resetHeld = s.resetHeld := by
  unfold afterCommand; split <;> rfl
@[simp] theorem afterCommand_script (s : State) : (afterCommand s).script = s.script := by
  unfold afterCommand; split <;> rfl
@[simp] theorem afterCommand_received (s : State) : (afterCommand s).received = s.received := by
  unfold afterCommand; split <;> rfl
@[simp] theorem afterCommand_stalled (s : State) : (afterCommand s).stalled = s.stalled := by
  unfold afterCommand; split <;> rfl
@[simp] theorem afterCommand_tick (s : State) : (afterCommand s).tick = s.tick := by
  unfold afterCommand; split <;> rfl

/-- The queue after the command side of an edge: the accepted command's response at the end. -/
theorem afterCommand_queue (s : State) :
    (afterCommand s).queue = s.queue ++
      (if cmdAccepted s then
        [⟨execWord s.cfg s.port.cmdWord s.port.cmdA s.port.cmdB s.port.cmdM,
          latencyOfWord s.cfg.lat s.port.cmdWord⟩] else []) := by
  unfold afterCommand; split <;> simp

theorem running_iff (s : State) : running s = true ↔ s.port.rst = false ∧ s.inReset = false := by
  simp [running]

/-- When a command is accepted (70_reset_and_hazards.md R148, R149). -/
theorem cmdAccepted_iff (s : State) :
    cmdAccepted s = true ↔ s.port.cmdValid = true ∧ running s = true ∧ s.queue.length < s.cfg.inflightMax ∧
      holdsReady s = false := by
  simp [cmdAccepted, cmdReady, hasRoom, and_assoc]

/-- When an entry is offered (70_reset_and_hazards.md R150). -/
theorem offered_eq_some_iff (s : State) (e : Entry) :
    offered s = some e ↔ running s = true ∧ e.wait = 0 ∧ ∃ q, s.queue = e :: q := by
  unfold offered
  cases h : s.queue with
  | nil => simp
  | cons a q =>
    simp only [Bool.and_eq_true, beq_iff_eq, Option.ite_none_right_eq_some, Option.some.injEq, List.cons.injEq]
    constructor
    · rintro ⟨⟨h1, h2⟩, rfl⟩; exact ⟨h1, h2, q, rfl, rfl⟩
    · rintro ⟨h1, h2, q', rfl, rfl⟩; exact ⟨⟨h1, h2⟩, rfl⟩

/-- What a taken response is (70_reset_and_hazards.md R150). -/
theorem rspTaken_spec {s : State} (h : rspTaken s = true) :
    ∃ e q, s.queue = e :: q ∧ e.wait = 0 ∧ running s = true ∧ s.port.rspReady = true ∧ rspOut s = e.resp := by
  simp only [rspTaken, rspValid, Bool.and_eq_true, Option.isSome_iff_exists] at h
  obtain ⟨⟨e, he⟩, hr⟩ := h
  obtain ⟨h1, h2, q, h3⟩ := (offered_eq_some_iff s e).1 he
  exact ⟨e, q, h3, h2, h1, hr, by simp [rspOut, he]⟩

theorem not_rspTaken_of_rst {s : State} (h : s.port.rst = true) : rspTaken s = false := by
  by_contra hc
  obtain ⟨_, _, _, _, hr, _⟩ := rspTaken_spec (by simpa using hc)
  simp [running, h] at hr

/-- The queue after an edge that samples `rst = 0`, and what the host has then received: the taken head moved from the
one to the other (70_reset_and_hazards.md R150, R151). -/
theorem closeEdge_ledger (s : State) :
    (closeEdge s (afterCommand s)).received ++ (closeEdge s (afterCommand s)).queue.map Entry.resp =
      s.received ++ (afterCommand s).queue.map Entry.resp := by
  have hage : ∀ q : List Entry, (q.map Entry.age).map Entry.resp = q.map Entry.resp := by
    intro q; rw [List.map_map]; rfl
  simp only [closeEdge_received, closeEdge_queue, hage, afterCommand_received]
  cases h : rspTaken s with
  | false => rfl
  | true =>
    obtain ⟨e, q, hq, -, -, -, ho⟩ := rspTaken_spec h
    simp [afterCommand_queue, hq, ho]

/-- When the host's next cycle is entered, and what the state then is. -/
theorem driveNext_eq_next_iff (b : Bool) (s t : State) :
    driveNext b s = .next t ↔
      breaksOffer b s.port (nextCycle b s).port = false ∧ breaksReset s (nextCycle b s).port = false ∧
        t = enterCycle (nextCycle b s) s := by
  unfold driveNext
  by_cases h1 : breaksOffer b s.port (nextCycle b s).port = true
  · simp [h1]
  · by_cases h2 : breaksReset s (nextCycle b s).port = true
    · simp [h1, h2]
    · simp only [h1, h2, Bool.false_eq_true, if_false, Host.Outcome.next.injEq, true_and]
      exact eq_comm

/-- An edge that samples `rst = 1` (70_reset_and_hazards.md R145). -/
theorem step_of_rst {s : State} (h : s.port.rst = true) : step s = driveNext false (resetEdge s) := by
  simp [step, h]

/-- An edge that samples `rst = 0` (70_reset_and_hazards.md R148 to R152). -/
theorem step_of_not_rst {s : State} (h : s.port.rst = false) :
    step s = driveNext (cmdAccepted s) (closeEdge s (afterCommand s)) := by
  simp [step, h, commandPhase_eq]

/-- All that a step can do when it answers a next state. -/
theorem step_cases {s t : State} (h : step s = .next t) :
    (s.port.rst = true ∧ breaksReset (resetEdge s) (nextCycle false (resetEdge s)).port = false ∧
      t = enterCycle (nextCycle false (resetEdge s)) (resetEdge s)) ∨
    (s.port.rst = false ∧
      t = enterCycle (nextCycle (cmdAccepted s) (closeEdge s (afterCommand s))) (closeEdge s (afterCommand s))) := by
  cases hr : s.port.rst with
  | true =>
    rw [step_of_rst hr, driveNext_eq_next_iff] at h
    exact .inl ⟨rfl, h.2.1, h.2.2⟩
  | false =>
    rw [step_of_not_rst hr, driveNext_eq_next_iff] at h
    exact .inr ⟨rfl, h.2.2⟩

/-- One more edge. -/
theorem edges_succ {s t : State} (k : Nat) (h : step s = .next t) : edges (k + 1) s = edges k t := by
  simp [edges, h]

/-- With the script over, an edge out of reset always answers a next state, and the host holds its signals but for an
accepted command. -/
theorem step_of_script_over {s : State} (h : s.port.rst = false) (hs : s.script = []) :
    step s = .next (enterCycle ⟨{ s.port with cmdValid := s.port.cmdValid && !cmdAccepted s }, false⟩
      (closeEdge s (afterCommand s))) := by
  have hc : nextCycle (cmdAccepted s) (closeEdge s (afterCommand s)) =
      ⟨{ s.port with cmdValid := s.port.cmdValid && !cmdAccepted s }, false⟩ := by
    simp [nextCycle, hs]
  rw [step_of_not_rst h, driveNext_eq_next_iff, hc]
  refine ⟨?_, by simp [breaksReset, h], rfl⟩
  cases ha : cmdAccepted s with
  | true => simp [breaksOffer]
  | false => cases hv : s.port.cmdValid <;> simp [breaksOffer, keepsOffer, sameOperands, hv]

/-- Out of reset, an edge on which the host breaks no offer answers a next state, from which it goes on keeping them. -/
theorem step_of_keepsOffers {s : State} {n : Nat} (h : s.port.rst = false) (hk : keepsOffers (n + 1) s = true) :
    ∃ t, step s = .next t ∧ keepsOffers n t = true ∧
      t = enterCycle (nextCycle (cmdAccepted s) s) (closeEdge s (afterCommand s)) := by
  have hc : nextCycle (cmdAccepted s) (closeEdge s (afterCommand s)) = nextCycle (cmdAccepted s) s := by
    simp [nextCycle]
  simp only [keepsOffers, Bool.and_eq_true, Bool.not_eq_true'] at hk
  have hs : step s = .next (enterCycle (nextCycle (cmdAccepted s) s) (closeEdge s (afterCommand s))) := by
    rw [step_of_not_rst h, driveNext_eq_next_iff, hc]
    exact ⟨by simpa using hk.1, by simp [breaksReset, h], rfl⟩
  exact ⟨_, hs, by simpa [hs] using hk.2, rfl⟩

/-- A condition on the port that the present cycle and every cycle of the script meet, and that withdrawing a command
keeps, holds of the next cycle. -/
theorem nextCycle_port {P : Port → Prop} {s : State} (b : Bool) (h0 : P s.port) (h : ∀ c ∈ s.script, P c.port)
    (hw : ∀ p v, P p → P { p with cmdValid := v }) : P (nextCycle b s).port := by
  unfold nextCycle
  split
  · next c cs hcs => exact h c (by simp [hcs])
  · exact hw _ _ h0

/-- No step changes the configuration. -/
theorem step_cfg {s t : State} (h : step s = .next t) : t.cfg = s.cfg := by
  obtain ⟨-, -, rfl⟩ | ⟨-, rfl⟩ := step_cases h <;> simp

/-- No step faults: the block has no traps (60_exceptions.md R136). -/
theorem fault_elim (f : Fault) : False := nomatch f

/-- A latency is at most the largest one. -/
theorem latencyOfWord_le_max (l : Latencies) (w : W32) : latencyOfWord l w ≤ maxLatency l := by
  unfold latencyOfWord latencyOf maxLatency
  split
  · split <;> omega
  · omega

/-- In a configuration inside the spec every latency is at least 1 (70_reset_and_hazards.md R152). -/
theorem one_le_latencyOfWord {l : Latencies} (h : l.wf = true) (w : W32) : 1 ≤ latencyOfWord l w := by
  simp only [Latencies.wf, Bool.and_eq_true, decide_eq_true_eq] at h
  unfold latencyOfWord latencyOf
  split
  · split <;> omega
  · omega

/-- The parts of a configuration inside the spec that the machine's proofs use. -/
theorem Config_wf_parts {c : Config} (h : c.wf = true) :
    1 ≤ c.inflightMax ∧ 1 ≤ c.resetCycles ∧ c.lat.wf = true := by
  simp only [Config.wf, Bool.and_eq_true, decide_eq_true_eq] at h
  exact ⟨h.1.1.1.1.1.1, h.1.1.1.1.1.2, h.1.1.1.1.2⟩

/-- An illegal response carries no data, a legal one is legal (10_state.md R24). -/
theorem execWord_wf (c : Config) (w : W32) (a b m : V128) : (execWord c w a b m).wf = true := by
  unfold execWord
  split
  · unfold responseOf; split <;> rfl
  · rfl

end Sys2Proof.Machine
end

