-- ==== Sys2Proof/Laws/PerInstr.lean ====
section
/-! SUPPORT. What holds of every command as syntax, said per constructor: each field of a command word carries exactly
what 30_encoding.md R50 to R55 puts there. -/

namespace Sys2Proof.Laws.EncodedFields

/-- `OP`, `VFROM`, `VTO` and `RSV` of the word of `i` are its opcode, its view codes and zero (R50 to R55). -/
def Statement (i : Instr) : Prop :=
  opField (encode i) = i.opcode ∧ vfromField (encode i) = i.vfrom ∧ vtoField (encode i) = i.vto ∧
    rsvField (encode i) = 0#16

theorem view (f t : View) : Statement (.view f t) :=
  ⟨opField_encode _, vfromField_encode _, vtoField_encode _, rsvField_encode _⟩

theorem sel : Statement .sel :=
  ⟨opField_encode _, vfromField_encode _, vtoField_encode _, rsvField_encode _⟩

theorem hsumF32 : Statement .hsumF32 :=
  ⟨opField_encode _, vfromField_encode _, vtoField_encode _, rsvField_encode _⟩

theorem hmaxU8 : Statement .hmaxU8 :=
  ⟨opField_encode _, vfromField_encode _, vtoField_encode _, rsvField_encode _⟩

theorem hmaxS16 : Statement .hmaxS16 :=
  ⟨opField_encode _, vfromField_encode _, vtoField_encode _, rsvField_encode _⟩

theorem rshiftF32 : Statement .rshiftF32 :=
  ⟨opField_encode _, vfromField_encode _, vtoField_encode _, rsvField_encode _⟩

theorem lshiftF32 : Statement .lshiftF32 :=
  ⟨opField_encode _, vfromField_encode _, vtoField_encode _, rsvField_encode _⟩

theorem logF32 : Statement .logF32 :=
  ⟨opField_encode _, vfromField_encode _, vtoField_encode _, rsvField_encode _⟩

theorem expF32 : Statement .expF32 :=
  ⟨opField_encode _, vfromField_encode _, vtoField_encode _, rsvField_encode _⟩

end Sys2Proof.Laws.EncodedFields
end

