-- ==== Sys2Proof/Tests/Slice0.lean ====
section
/-! SUPPORT. Tests on values taken from the spec (95_test_vectors.md, 30_encoding.md), and for every statement of
Certificates/Slice0/Obligations.lean a witness of its hypotheses. -/

namespace Sys2Proof.Tests

open Sys2Proof.Machine

/-! ### Helpers -/

/-- The machine after reset with one command offered. -/
def offer (w : W32) (a b m : V128) : State :=
  { State.reset with port := { Port.idle with cmdValid := true, cmdWord := w, cmdA := a, cmdB := b, cmdM := m } }

/-- The outcome is a next state that satisfies `p`. -/
def nextIs (o : Host.Outcome State Fault Refusal) (p : State → Bool) : Bool :=
  match o with
  | .next t => p t
  | .fault _ => false
  | .refused _ => false

theorem exists_of_nextIs {o : Host.Outcome State Fault Refusal} {p : State → Bool} (h : nextIs o p = true) :
    ∃ t, o = .next t ∧ p t = true := by
  match o, h with
  | .next t, h => exact ⟨t, rfl, h⟩

/-- The next step queues exactly the response `r`. -/
def answers (s : State) (r : Response) : Bool := nextIs (step s) fun t => t.queue.map Entry.resp == [r]

/-- `f32{x0, x1, x2, x3}` of 30_encoding.md R64, on bit patterns. -/
abbrev f32x4 (x0 x1 x2 x3 : W32) : V128 := pack32 x0 x1 x2 x3

/-! ### Well-formedness: each check refuses an ill-formed term -/

theorem test_wf_view_full_to_half : Instr.wellFormed (.view .i8x16 .i8x8) = false := by decide
theorem test_wf_view_half_to_full : Instr.wellFormed (.view .i8x8 .i8x16) = false := by decide
theorem test_wf_default : Config.default.wf = true := by decide
theorem test_wf_depth : { Config.default with inflightMax := 0 }.wf = false := by decide
theorem test_wf_reset_cycles : { Config.default with resetCycles := 0 }.wf = false := by decide
theorem test_wf_log_ulp : { Config.default with logMaxUlp := 0 }.wf = false := by decide
theorem test_wf_exp_ulp : { Config.default with expMaxUlp := 0 }.wf = false := by decide
theorem test_wf_nan_is_infinity : { Config.default with nanOut := 0x7F800000#32 }.wf = false := by decide
theorem test_wf_nan_is_number : { Config.default with nanOut := 0x7F400000#32 }.wf = false := by decide
theorem test_wf_latencies : ∀ l ∈ [⟨0, 1, 1, 1, 1, 1, 1, 1, 1⟩, ⟨1, 0, 1, 1, 1, 1, 1, 1, 1⟩, ⟨1, 1, 0, 1, 1, 1, 1, 1, 1⟩,
    ⟨1, 1, 1, 0, 1, 1, 1, 1, 1⟩, ⟨1, 1, 1, 1, 0, 1, 1, 1, 1⟩, ⟨1, 1, 1, 1, 1, 0, 1, 1, 1⟩, ⟨1, 1, 1, 1, 1, 1, 0, 1, 1⟩,
    ⟨1, 1, 1, 1, 1, 1, 1, 0, 1⟩, ⟨1, 1, 1, 1, 1, 1, 1, 1, (0 : Nat)⟩],
    { Config.default with lat := l }.wf = false := by decide

/-! ### Decoding: words written out bit by bit from 30_encoding.md R66 -/

theorem test_decode_view :
    decode 0b00000000000000000010000100000001#32 = .ok (.view .u8x16 .i16x8) := by decide
theorem test_decode_view_half :
    decode 0b00000000000000001101101100000001#32 = .ok (.view .i64x1 .f32x2) := by decide
theorem test_decode_sel : decode 0b00000000000000000000000000010000#32 = .ok .sel := by decide
theorem test_decode_hsum : decode 0b00000000000000000000000000100000#32 = .ok .hsumF32 := by decide
theorem test_decode_hmaxU8 : decode 0b00000000000000000000000000100001#32 = .ok .hmaxU8 := by decide
theorem test_decode_hmaxS16 : decode 0b00000000000000000000000000100010#32 = .ok .hmaxS16 := by decide
theorem test_decode_rshift : decode 0b00000000000000000000000000110000#32 = .ok .rshiftF32 := by decide
theorem test_decode_lshift : decode 0b00000000000000000000000000110001#32 = .ok .lshiftF32 := by decide
theorem test_decode_log : decode 0b00000000000000000000000001000000#32 = .ok .logF32 := by decide
theorem test_decode_exp : decode 0b00000000000000000000000001000001#32 = .ok .expF32 := by decide

/-- The illegal words of 95_test_vectors.md 2.1 and 2.9, by the cases of 30_encoding.md R67. -/
theorem test_reject_reserved_bits :
    decode 0x00010010 = .error .reservedBits ∧ decode 0x80000041 = .error .reservedBits := by decide
theorem test_reject_reserved_opcode :
    decode 0x00000000 = .error .reservedOpcode ∧ decode 0x00000002 = .error .reservedOpcode ∧
    decode 0x00000042 = .error .reservedOpcode ∧ decode 0x000000FF = .error .reservedOpcode := by decide
theorem test_reject_stray_view_code :
    decode 0x00000110 = .error .strayViewCode ∧ decode 0x00001020 = .error .strayViewCode := by decide
theorem test_reject_view_pair :
    decode 0x00009001 = .error .illegalViewPair ∧ decode 0x00000901 = .error .illegalViewPair ∧
    decode 0x0000E001 = .error .illegalViewPair ∧ decode 0x00000E01 = .error .illegalViewPair ∧
    decode 0x00009101 = .error .illegalViewPair ∧ decode 0x0000F001 = .error .illegalViewPair ∧
    decode 0x00000F01 = .error .illegalViewPair ∧ decode 0x00001901 = .error .illegalViewPair ∧
    decode 0x00002E01 = .error .illegalViewPair := by decide

/-- V-VIEW-12: of the 256 `VIEW` words 106 are legal. -/
theorem test_legal_view_words :
    ((List.range 256).filter fun n => (decodeTableWord 32 (n * 256 + 1)).isSome).length = 106 := by decide +kernel

/-- A table word whose higher bits are left out is the same command; a wider one is no command word (R61). -/
theorem test_table_word : decodeTableWord 8 0x20 = some .hsumF32 ∧ decodeTableWord 64 0x100000020 = none := by decide

/-- The syntax of 30_encoding.md R62 and R63. -/
theorem test_assemble : assemble "VIEW U8X16->I16X8" = some 0x00002101 ∧ assemble "HMAX.S16" = some 0x00000022 ∧
    assemble "LOW64" = some 0x0000AA01 ∧ assemble "VIEW I8X16->I8X8" = none := by decide

/-! ### Float32 primitives (00_scope.md R12) -/

theorem test_fadd_signed_zeros : fadd32 0x7FC00000 0 0x80000000 = 0 ∧
    fadd32 0x7FC00000 0x80000000 0x80000000 = 0x80000000 ∧ fadd32 0x7FC00000 0x3F800000 0xBF800000 = 0 := by decide
theorem test_fmul_overflow_and_subnormal : fmul32 0x7FC00000 0x7F7FFFFF 0xC0000000 = 0xFF800000 ∧
    fmul32 0x7FC00000 0x00800000 0x3F000000 = 0x00400000 := by decide +kernel
theorem test_floor_is_below : floor32 0xBF000000 = -1 ∧ floor32 0x3F000000 = 0 ∧ floor32 0xC0000000 = -2 := by decide
theorem test_flt_zeros_and_nan : flt32 0x80000000 0 = false ∧ flt32 0xFF800000 0x80000000 = true ∧
    flt32 0x7FC00000 0x7F800000 = false := by decide

/-- V-VIEW-01, and the cut of a V64 view: the port's upper half holds no lane of it (40_view.md R71, R75). -/
theorem test_laneValue : View.laneValue .i8x16 0xFF#128 0 = some (.int (-1)) ∧
    View.laneValue .u8x16 0xFF#128 0 = some (.int 255) ∧
    View.laneValue .i8x8 0x00000000000000FF8000000000000000#128 7 = some (.int (-128)) ∧
    View.laneValue .i8x8 0x00000000000000FF8000000000000000#128 8 = none := by decide

/-! ### The commands: vectors of 95_test_vectors.md, one step each -/

/-- V-VIEW-02: the payload of a NaN and the sign of a zero are kept. -/
theorem test_view_full : answers (offer 0x00008101 0x8899AABBCCDDEEFF7FC0000180000000#128 0 0)
    ⟨0x8899AABBCCDDEEFF7FC0000180000000#128, false⟩ = true := by decide

/-- V-VIEW-05: a V64 view drops the upper half. -/
theorem test_view_half : answers (offer 0x0000D901 0x8899AABBCCDDEEFF7FC0000180000000#128 0 0)
    ⟨0x00000000000000007FC0000180000000#128, false⟩ = true := by decide

/-- V-SEL-06: a mask that is not lane-uniform blends bit by bit. -/
theorem test_sel_blend : answers (offer 0x00000010 0xAAAAAAAAAAAAAAAAAAAAAAAAAAAAAAAA#128
    0x55555555555555555555555555555555#128 0x0F0F0F0FF0F0F0F0FFFF00000000FFFF#128)
    ⟨0xA5A5A5A55A5A5A5A5555AAAAAAAA5555#128, false⟩ = true := by decide

/-- V-SEL-01. -/
theorem test_sel_lanes : answers (offer 0x00000010 0x4080000040400000400000003F800000#128
    0x4100000040E0000040C0000040A00000#128 0x00000000FFFFFFFF00000000FFFFFFFF#128)
    ⟨0x4080000040E000004000000040A00000#128, false⟩ = true := by decide

/-- V-HSUM-12: the tree order and ties to even are visible. -/
theorem test_hsum_tree : answers (offer 0x00000020 (f32x4 0x3F800000 0x33800000 0x33800000 0x33800000) 0 0)
    ⟨0x3F800001#128, false⟩ = true := by decide

/-- V-HSUM-06: one pair overflows each way, and the sum of the infinities is `NAN_OUT`. -/
theorem test_hsum_overflow : answers (offer 0x00000020 (f32x4 0x7F7FFFFF 0x7F7FFFFF 0xFF7FFFFF 0xFF7FFFFF) 0 0)
    ⟨0x7FC00000#128, false⟩ = true := by decide

/-- V-HMU-04: the comparison is unsigned. -/
theorem test_hmaxU8_unsigned : answers (offer 0x00000021 0x807F7F7F7F7F7F7F7F7F7F7F7F7F7F7F#128 0 0)
    ⟨0x80#128, false⟩ = true := by decide

/-- V-HMU-06: the top lane is read. -/
theorem test_hmaxU8_top : answers (offer 0x00000021 0x01000000000000000000000000000000#128 0 0)
    ⟨0x01#128, false⟩ = true := by decide

/-- V-HMS-03: a negative maximum is zero-extended. -/
theorem test_hmaxS16_negative : answers (offer 0x00000022 0xFFF8FFF9FFFAFFFBFFFCFFFDFFFEFFFF#128 0 0)
    ⟨0xFFFF#128, false⟩ = true := by decide

/-- V-HMS-04: the comparison is signed. -/
theorem test_hmaxS16_signed : answers (offer 0x00000022 0x0000000000000000000000007FFF8000#128 0 0)
    ⟨0x7FFF#128, false⟩ = true := by decide

/-- V-SHIFT-01 and V-SHIFT-07: lane 0 of `B` goes in at lane 0. -/
theorem test_rshift : answers (offer 0x00000030 0x4080000040400000400000003F800000#128
    0x40C0000040E000004100000041100000#128 0) ⟨0x40400000400000003F80000041100000#128, false⟩ = true := by decide
theorem test_rshift_bits : answers (offer 0x00000030 0x111111117F8000018000000000000001#128
    0xDEADBEEFDEADBEEFDEADBEEFFFC00000#128 0) ⟨0x7F8000018000000000000001FFC00000#128, false⟩ = true := by decide

/-- V-SHIFT-02 and V-SHIFT-08: lane 0 of `B` goes in at lane 3. -/
theorem test_lshift : answers (offer 0x00000031 0x4080000040400000400000003F800000#128
    0x40C0000040E000004100000041100000#128 0) ⟨0x41100000408000004040000040000000#128, false⟩ = true := by decide
theorem test_lshift_bits : answers (offer 0x00000031 0x111111117F8000018000000000000001#128
    0xDEADBEEFDEADBEEFDEADBEEFFFC00000#128 0) ⟨0xFFC00000111111117F80000180000000#128, false⟩ = true := by decide

/-- V-LOG-17, V-LOG-18, V-LOG-15, V-LOG-14: the largest error, a subnormal, and both sides of `SQRTHF`. -/
theorem test_log_values : answers (offer 0x00000040 (f32x4 0x3F3331AE 0x00000001 0x3F3504F2 0x3F3504F3) 0 0)
    ⟨f32x4 0xBEB6A272 0xC2CE8ED0 0xBEB1721C 0xBEB17218, false⟩ = true := by decide +kernel

/-- The whole-command vector of 2.7: 1, 0, -1, +inf. -/
theorem test_log_special : answers (offer 0x00000040 (f32x4 0x3F800000 0x00000000 0xBF800000 0x7F800000) 0 0)
    ⟨0x7F8000007FC00000FF80000000000000#128, false⟩ = true := by decide +kernel

/-- V-EXP-14, V-EXP-15, V-EXP-19, V-EXP-20: the largest error, the `n = 128` path, and both sides of `EXP_LO`. -/
theorem test_exp_values : answers (offer 0x00000041 (f32x4 0x428CCE63 0x42B17217 0xC2AEAC4F 0xC2AEAC50) 0 0)
    ⟨f32x4 0x723E0BAC 0x7F7FFF84 0x00800026 0x00000000, false⟩ = true := by decide +kernel

/-- The whole-command vector of 2.8: 0, 1e10, -inf, NaN. -/
theorem test_exp_special : answers (offer 0x00000041 (f32x4 0x00000000 0x501502F9 0xFF800000 0x7FC00000) 0 0)
    ⟨0x7FC00000000000007F8000003F800000#128, false⟩ = true := by decide +kernel

/-- V-ILL-07: an illegal word is answered with `ILL = 1` and no data. -/
theorem test_illegal : answers (offer 0x00000110 0x4080000040400000400000003F800000#128 0 0) ⟨0, true⟩ = true := by
  decide

/-- The accuracy test admits the answer of `LOGF_REF` at 10 (0.134 ULP, V-LOG-05) and its neighbours, and refuses the
lane 3 away; likewise `EXPF` at 1 (V-EXP-03). -/
theorem test_logWithin : logWithin 2 0x41200000 0x40135D8E = true ∧ logWithin 2 0x41200000 0x40135D8F = true ∧
    logWithin 2 0x41200000 0x40135D91 = false := by decide +kernel
theorem test_expWithin : expWithin 2 0x3F800000 0x402DF854 = true ∧ expWithin 2 0x3F800000 0x402DF857 = false := by
  decide +kernel

/-- R118: `EXP.F32` never returns a subnormal, although at `EXP_LO` one lies within 40 ULP of the exact result. -/
theorem test_exp_no_subnormal : expWithin 40 0xC2AEAC4F 0x007FFFFF = true ∧
    isSubnormal (expfFree 0x7FC00000 40 0xC2AEAC4F 0x007FFFFF) = false ∧
    expfFree 0x7FC00000 40 0xC2AEAC4F 0x00800027 = 0x00800027 := by decide +kernel

/-! ### The clocked machine (95_test_vectors.md 2.10, 70_reset_and_hazards.md) -/

/-- The response `r1` of `c1` and the illegal response of `c2` of 2.10. -/
def r1 : Response := ⟨0x41200000#128, false⟩
def r2 : Response := ⟨0, true⟩

/-- The machine with `Q = [r1, r2]` (`INFLIGHT_MAX = 2`, full), both ready to be taken, `c3` offered. -/
def full : State :=
  { offer 0x00000021 0x0F0E0D0C0B0A09080706050403020100#128 0 0 with queue := [⟨r1, 0⟩, ⟨r2, 0⟩] }

/-- The machine with `Q = [r1]`, the host taking responses and offering nothing. -/
def busy : State :=
  { State.reset with queue := [⟨r1, 0⟩], port := { Port.idle with rspReady := true } }

/-- V-HS-02: with a full queue `c3` is not accepted. -/
theorem test_full_queue_accepts_nothing : cmdReady full = false ∧
    nextIs (step full) (fun t => t.queue.map Entry.resp == [r1, r2]) = true := by decide

/-- V-HS-01, its last two transitions: responses leave oldest first. -/
theorem test_oldest_leaves_first :
    nextIs (step { full with port := { full.port with rspReady := true } }) (fun t =>
      t.received == [r1] && t.queue.map Entry.resp == [r2]) = true := by decide

/-- R152: a command is accepted on the edge that takes a response, and its own response is not delivered then. -/
theorem test_accept_and_respond :
    nextIs (step { busy with port := { busy.port with cmdValid := true, cmdWord := 0x00000021 } }) (fun t =>
      t.received == [r1] && t.queue.map Entry.resp == [⟨0, false⟩]) = true := by decide

/-- V-HS-03: reset loses the queued responses. -/
theorem test_reset_clears : nextIs (step { busy with port := { busy.port with rst := true } }) (fun t =>
    t.queue.isEmpty && t.received.isEmpty && t.inReset) = true := by decide

/-- The first step after reset with a table word placed runs that command (S2 of 95_test_vectors.md, on zeros). -/
theorem test_fetch_word : answers (State.reset.withFetchWord 32 0x20) ⟨0, false⟩ = true := by decide

/-- Program P4 of 95_test_vectors.md section 3: a guarded logarithm. -/
theorem test_transcript_P4 :
    runTranscript Config.default [("x", 0x0000000042C800003F800000BF800000#128), ("m", 0x00000000FFFFFFFFFFFFFFFF00000000#128)]
      [⟨"l", 0x40, .name "x", .omitted, .omitted⟩, ⟨"safe", 0x10, .literal 0, .name "l", .name "m"⟩,
       ⟨"e", 0x41, .name "safe", .omitted, .omitted⟩, ⟨"hs", 0x20, .name "e", .omitted, .omitted⟩] =
    .halted [("hs", 0x42CE0001#128), ("e", 0x3F80000042C800013F8000003F800000#128),
      ("safe", 0x0000000040935D8E0000000000000000#128), ("l", 0xFF80000040935D8E000000007FC00000#128),
      ("x", 0x0000000042C800003F800000BF800000#128), ("m", 0x00000000FFFFFFFFFFFFFFFF00000000#128)] := by decide +kernel

/-! ### Witnesses: encoding, views, select, reductions -/

theorem witness_DecodeInvertsEncode :
    Instr.wellFormed (.view .i8x16 .f32x4) = true ∧ Instr.wellFormed (.view .f32x2 .i8x8) = true := by decide
theorem witness_EncodeInvertsDecode : decode 0x0000DD01 = .ok (.view .f32x2 .f32x2) := by decide

/-- One word for each case of R67, and legal words at the ends of the ranges of view codes. -/
theorem witness_IllegalWordsAreTheFourCases :
    (0x00010010#32).extractLsb' 16 16 ≠ 0#16 ∧
    ((0x00000042#32).extractLsb' 0 8).toNat ∉ [0x01, 0x10, 0x20, 0x21, 0x22, 0x30, 0x31, 0x40, 0x41] ∧
    (((0x00000110#32).extractLsb' 0 8).toNat ≠ 0x01 ∧ ((0x00000110#32).extractLsb' 8 4).toNat ≠ 0) ∧
    (((0x00009801#32).extractLsb' 0 8).toNat = 0x01 ∧ ((0x00009801#32).extractLsb' 8 4).toNat = 0x8 ∧
      ((0x00009801#32).extractLsb' 12 4).toNat = 0x9) ∧
    decode 0x00008801 = .ok (.view .f32x4 .f32x4) ∧ decode 0x00009901 = .ok (.view .i8x8 .i8x8) ∧
    decode 0x0000DD01 = .ok (.view .f32x2 .f32x2) := by decide

theorem witness_WrittenCommandsAssemble : Instr.wellFormed .expF32 = true := by decide
theorem witness_ViewResult :
    Instr.wellFormed (.view .u8x16 .u8x16) = true ∧ Instr.wellFormed (.view .u8x8 .u8x8) = true := by decide
theorem witness_ViewAliasing : View.isHalf .i8x16 = View.isHalf .f32x4 ∧ View.isHalf .i8x16 = false ∧
    View.isHalf .i8x8 = View.isHalf .u64x1 ∧ View.isHalf .i8x8 = true := by decide
theorem witness_LanesAreBytesInOrder :
    (128 ∈ [64, 128] ∧ 8 ∈ [8, 16, 32, 64] ∧ 15 < 128 / 8 ∧ 0 < 8 / 8) ∧
    (64 ∈ [64, 128] ∧ 64 ∈ [8, 16, 32, 64] ∧ 0 < 64 / 64 ∧ 7 < 64 / 8) := by decide
/-- The last lane of a V128 and of a V64 pair, and of the float views. -/
theorem witness_SignedAndUnsignedReadings :
    ((View.i8x16, View.u8x16, 8, 16) ∈ [(View.i8x16, View.u8x16, 8, 16), (.i16x8, .u16x8, 16, 8),
      (.i32x4, .u32x4, 32, 4), (.i64x2, .u64x2, 64, 2), (.i8x8, .u8x8, 8, 8), (.i64x1, .u64x1, 64, 1)] ∧ 15 < 16) ∧
    ((View.i8x8, View.u8x8, 8, 8) ∈ [(View.i8x16, View.u8x16, 8, 16), (.i16x8, .u16x8, 16, 8),
      (.i32x4, .u32x4, 32, 4), (.i64x2, .u64x2, 64, 2), (.i8x8, .u8x8, 8, 8), (.i64x1, .u64x1, 64, 1)] ∧ 7 < 8) ∧
    3 < 4 ∧ 1 < 2 := by decide
theorem witness_SelLaneUniformMask : 32 ∈ [8, 16, 32, 64] ∧
    (∀ k < 128 / 32, lane 32 (0xFFFFFFFF000000000000000000000000#128) k = 0 ∨
      lane 32 (0xFFFFFFFF000000000000000000000000#128) k = BitVec.allOnes 32) ∧
    lane 32 (0xFFFFFFFF000000000000000000000000#128) 0 = 0 ∧
    lane 32 (0xFFFFFFFF000000000000000000000000#128) 3 = BitVec.allOnes 32 := by decide
theorem witness_MaximaIgnoreLaneOrder :
    (∀ k : Fin 16, lane 8 (0x0100#128) k = lane 8 (0x0001#128) (Equiv.swap (0 : Fin 16) 1 k)) ∧
    (∀ k : Fin 8, lane 16 (0x00010000#128) k = lane 16 (0x00000001#128) (Equiv.swap (0 : Fin 8) 1 k)) := by decide

/-! ### Witnesses: float32, logarithm, exponential -/

/-- The overflow clause at its bound (`FLT_MAX + 2^103`, exactly the threshold) and just below it, and a zero sum. -/
theorem witness_AdditionRoundsToNearestEven :
    isFinite 0x7F7FFFFF = true ∧ isFinite 0x73000000 = true ∧ isFinite 0x72FFFFFF = true ∧ isFinite 0xBF800000 = true ∧
    (signedUnits 0x7F7FFFFF + signedUnits 0x73000000).natAbs = 2 ^ 277 - 2 ^ 252 ∧
    (signedUnits 0x7F7FFFFF + signedUnits 0x72FFFFFF).natAbs < 2 ^ 277 - 2 ^ 252 ∧
    signedUnits 0x3F800000 + signedUnits 0xBF800000 = 0 := by decide +kernel
theorem witness_MultiplicationRoundsToNearestEven :
    isFinite 0x7F7FFFFF = true ∧ isFinite 0x3F800001 = true ∧ isFinite 0x3F800000 = true ∧
    (2 ^ 277 - 2 ^ 252) * 2 ^ 149 ≤ (signedUnits 0x7F7FFFFF * signedUnits 0x3F800001).natAbs ∧
    (signedUnits 0x7F7FFFFF * signedUnits 0x3F800000).natAbs < (2 ^ 277 - 2 ^ 252) * 2 ^ 149 := by decide +kernel
theorem witness_ArithmeticOfSpecialOperands :
    isNaN 0x7F800001 = true ∧ isInf 0xFF800000 = true ∧ isFinite 0x7F7FFFFF = true ∧ isZero 0x80000000 = true ∧
    isNaN 0x00000001 = false ∧ isZero 0x00000001 = false := by decide
theorem witness_ComparisonAndConversion :
    isNaN 0x7F800001 = true ∧ isFinite 0x00000001 = true ∧ isFinite 0xFF7FFFFF = true ∧ (-2 ^ 24 : Int).natAbs ≤ 2 ^ 24 := by
  decide
/-- The four classes with exponent below 255 at their ends, a NaN and an infinity. -/
theorem witness_FloatReadingIsBinary32 :
    (((0x7F800001#32).extractLsb' 23 8).toNat = 255 ∧ ((0x7F800001#32).extractLsb' 0 23).toNat ≠ 0) ∧
    (((0xFF800000#32).extractLsb' 23 8).toNat = 255 ∧ ((0xFF800000#32).extractLsb' 0 23).toNat = 0) ∧
    ((0x7F7FFFFF#32).extractLsb' 23 8).toNat < 255 ∧ ((0x00800000#32).extractLsb' 23 8).toNat < 255 ∧
    ((0x807FFFFF#32).extractLsb' 23 8).toNat < 255 := by decide
theorem witness_LogSpecialInputs :
    isNaN 0xFFC00001 = true ∧ signBit 0x80000001 = true ∧ isNaN 0x80000001 = false ∧ 0x80000001#32 ≠ 0x80000000#32 ∧
    signBit 0xFF800000 = true ∧ isNaN 0xFF800000 = false := by decide

/-- A configuration whose `LOGF` and `EXPF` are free. -/
def freeConfig : Config := { Config.default with logImpl := .free 0, expImpl := .free 0 }

theorem witness_LogReferenceAlgorithm : Config.default.logImpl = .reference := by decide
theorem witness_ExpReferenceAlgorithm : Config.default.expImpl = .reference := by decide
theorem witness_ExpThresholdsAreTheFloatRange : isFinite 0x42B17217 = true ∧ isFinite 0x42B17218 = true ∧
    isFinite 0xC2AEAC4F = true ∧ isFinite 0xC2AEAC50 = true := by decide
theorem witness_LogOfSubnormalIsFree : freeConfig.logImpl = .free 0 ∧ isSubnormal 0x00000001 = true ∧
    isSubnormal 0x007FFFFF = true ∧ signBit 0x00000001 = false ∧ signBit 0x007FFFFF = false := by decide
theorem witness_FreeLogMeetsAccuracy : freeConfig.logImpl = .free 0 ∧ isNormal 0x00800000 = true ∧
    isNormal 0x7F7FFFFF = true ∧ signBit 0x00800000 = false ∧ signBit 0x7F7FFFFF = false := by decide
theorem witness_ExpSpecialInputs : isNaN 0x7F800001 = true ∧ isNaN 0x42B17218 = false ∧
    flt32 0x42B17218 0x42B17218 = false ∧ flt32 0xC2AEAC50 0xC2AEAC4F = true := by decide
theorem witness_FreeExpMeetsAccuracy : freeConfig.expImpl = .free 0 ∧
    (isZero 0xC2AEAC4F = false ∧ flt32 0xC2AEAC4F 0xC2AEAC4F = false ∧ flt32 0xC2AEAC4F 0x42B17218 = true) ∧
    (isZero 0x42B17217 = false ∧ flt32 0x42B17217 0xC2AEAC4F = false ∧ flt32 0x42B17217 0x42B17218 = true) ∧
    (isZero 0x00000001 = false ∧ flt32 0x00000001 0xC2AEAC4F = false ∧ flt32 0x00000001 0x42B17218 = true) := by decide

/-! ### Witnesses: the clocked machine -/

theorem witness_StateAfterReset : 1 ≤ Config.default.inflightMax := by decide

/-- In reset, held for the required one edge after this one, and released by the script. -/
def releasing : State :=
  { State.reset with port := { Port.idle with rst := true }, script := [⟨Port.idle, false⟩] }

/-- As `releasing`, with a reset of at least two edges asked for. -/
def releasingEarly : State := { releasing with cfg := { Config.default with resetCycles := 2 } }

theorem witness_ResetEdgeClearsQueue :
    releasing.port.rst = true ∧ releasing.cfg.resetCycles ≤ releasing.resetHeld + 1 ∧
    releasingEarly.port.rst = true ∧ (nextCycle false releasingEarly).port.rst = false ∧
    releasingEarly.resetHeld + 1 < releasingEarly.cfg.resetCycles := by decide

theorem witness_StepRunsTheDecodedCommand :
    (offer 0x20 0 0 0).port.rst = false ∧ decode (offer 0x20 0 0 0).port.cmdWord = .ok .hsumF32 ∧
    cmdAccepted (offer 0x20 0 0 0) = true ∧
    (∃ u, exec .hsumF32 (offer 0x20 0 0 0) = .next u) ∧
    full.port.rst = false ∧ decode full.port.cmdWord = .ok .hmaxU8 ∧ cmdAccepted full = false :=
  ⟨by decide, by decide, by decide, ⟨_, rfl⟩, by decide, by decide, by decide⟩

theorem witness_IllegalCommandOnlyQueuesItsResponse : (offer 0 0 0 0).port.rst = false ∧
    cmdAccepted (offer 0 0 0 0) = true ∧ decode (offer 0 0 0 0).port.cmdWord = .error .reservedOpcode := by decide

theorem witness_OfferedResponseIsHeld :
    rspValid full = true ∧ full.port.rspReady = false ∧ ∃ t, step full = .next t ∧ t.port.rst = false := by
  refine ⟨by decide, by decide, ?_⟩
  simpa using exists_of_nextIs (o := step full) (p := fun t => !t.port.rst) (by decide)

theorem witness_ResponsesAreConservedInOrder : busy.port.rst = false ∧ ∃ t, step busy = .next t := by
  refine ⟨by decide, ?_⟩
  simpa using exists_of_nextIs (o := step busy) (p := fun _ => true) (by decide)

/-- The invariant holds of `busy`. -/
theorem busy_inv : busy.Inv where
  config := by decide
  depth := by decide
  waits := by decide
  queued := by decide
  received := by decide
  resetPort := by decide
  resetQueue := by decide
  resetCount := by decide
  stall := by decide

/-- A host that after its command drives a second one and takes no response. -/
def offering : State := { offer 0x40 0 0 0 with script := [⟨(offer 0x21 5 0 0).port, false⟩] }

/-- A host that takes responses and drives a new command in every cycle; the queued response has one edge to wait. -/
def streaming : State :=
  { offer 0x20 1 0 0 with
    queue := [⟨r1, 1⟩]
    port := { (offer 0x20 1 0 0).port with rspReady := true }
    script := [⟨{ (offer 0x21 5 0 0).port with rspReady := true }, false⟩] }

theorem witness_ResponseIsOfferedAfterItsLatency : offering.queue = [] ∧ cmdAccepted offering = true ∧
    offering.port.rspReady = false ∧ (∀ c ∈ offering.script, c.port.rst = false ∧ c.port.rspReady = false) ∧
    keepsOffers 2 offering = true ∧ latencyOfWord offering.cfg.lat offering.port.cmdWord ≤ 2 := by decide

theorem witness_OldestResponseIsDelivered : streaming.queue = [⟨r1, 1⟩] ∧ streaming.port.rst = false ∧
    streaming.inReset = false ∧ streaming.port.rspReady = true ∧
    (∀ c ∈ streaming.script, c.port.rst = false ∧ c.port.rspReady = true) ∧ keepsOffers 2 streaming = true := by decide

/-- The invariant of its last clause holds of a state with a queued response. -/
theorem witness_OldestResponseIsDelivered_inv : busy.Inv ∧ busy.queue = [⟨r1, 0⟩] ∧ busy.port.rspReady = true ∧
    busy.script = [] ∧ keepsOffers 1 busy = true := ⟨busy_inv, by decide, by decide, by decide, by decide⟩

/-- A block that holds `cmd_ready` at 0 for one edge, its host keeping the command on the port. -/
def holding : State :=
  { offer 0x20 0 0 0 with
    cfg := { Config.default with readyHoldMax := 1 }
    hold := true
    script := [⟨(offer 0x20 0 0 0).port, true⟩] }

theorem witness_OfferedCommandIsAccepted : holding.port.cmdValid = true ∧ holding.port.rst = false ∧
    holding.inReset = false ∧ holding.queue.length < holding.cfg.inflightMax ∧
    (∀ c ∈ holding.script, c.port = holding.port) ∧ cmdAccepted holding = false := by decide

theorem witness_InvariantHoldsAtReset : { Config.default with inflightMax := 1, logImpl := .free 3 }.wf = true := by decide

theorem witness_StepKeepsInvariant : busy.Inv ∧ ∃ t, step busy = .next t :=
  ⟨busy_inv, witness_ResponsesAreConservedInOrder.2⟩
theorem witness_StepRefinesUntimedMachine : busy.Inv ∧ ∃ t, step busy = .next t := witness_StepKeepsInvariant

/-- Accept at `|Q| = INFLIGHT_MAX - 1`, Respond at `|Q| = INFLIGHT_MAX`, and Reset. -/
theorem witness_EveryUntimedTransitionIsAStep : Config.default.wf = true ∧
    (∀ r ∈ [r1, r2], r.wf = true) ∧ [r1, r2].length ≤ Config.default.inflightMax ∧
    UntimedStep Config.default ⟨[r1], false⟩ (.accept 0x10 1 2 3) ⟨[r1] ++ [execWord Config.default 0x10 1 2 3], false⟩ ∧
    UntimedStep Config.default ⟨[r1, r2], false⟩ (.respond r1) ⟨[r2], false⟩ ∧
    UntimedStep Config.default ⟨[r1, r2], false⟩ .reset ⟨[], true⟩ :=
  ⟨by decide, by decide, by decide, .accept _ _ _ _ _ (by decide), .respond _ _, .reset _ _⟩

/-- Differing operands in what each clause leaves unread. -/
theorem witness_UnreadOperandsDoNotMatter :
    decode 0x00000042 = .error .reservedOpcode ∧
    (decode 0x0000AA01 = .ok (.view .u8x8 .u8x8) ∧ View.isHalf .u8x8 = true ∧
      (0x10000000000000005#128).extractLsb' 0 64 = (0x5#128).extractLsb' 0 64) ∧
    decode 0x00001101 = .ok (.view .u8x16 .u8x16) ∧
    (Instr.expF32 ∈ [Instr.hsumF32, .hmaxU8, .hmaxS16, .logF32, .expF32] ∧ decode 0x00000041 = .ok .expF32) ∧
    (Instr.lshiftF32 ∈ [Instr.rshiftF32, .lshiftF32] ∧ decode 0x00000031 = .ok .lshiftF32 ∧
      (0x100000002#128).extractLsb' 0 32 = (0x2#128).extractLsb' 0 32) := by decide

theorem witness_ResponseDoesNotDependOnTiming :
    cmdAccepted (offer 0x22 5 6 7) = true ∧
    cmdAccepted { offer 0x22 5 6 7 with cfg := { Config.default with inflightMax := 9, lat := ⟨3, 3, 3, 3, 7, 3, 3, 3, 3⟩ } } = true ∧
    (∃ t, step (offer 0x22 5 6 7) = .next t) ∧
    ∃ t, step { offer 0x22 5 6 7 with cfg := { Config.default with inflightMax := 9, lat := ⟨3, 3, 3, 3, 7, 3, 3, 3, 3⟩ } } =
      .next t := by
  refine ⟨by decide, by decide, ?_, ?_⟩
  · simpa using exists_of_nextIs (o := step (offer 0x22 5 6 7)) (p := fun _ => true) (by decide)
  · simpa using exists_of_nextIs (p := fun _ => true) (o := step { offer 0x22 5 6 7 with
      cfg := { Config.default with inflightMax := 9, lat := ⟨3, 3, 3, 3, 7, 3, 3, 3, 3⟩ } }) (by decide)

/-- `holding` with a host that drops the command, changes the word, changes an operand the command reads, or changes
operands that it does not read. -/
def dropping : State := { holding with script := [⟨Port.idle, false⟩] }
def rewording : State := { holding with script := [⟨(offer 0x21 0 0 0).port, false⟩] }
def reloading : State := { holding with script := [⟨(offer 0x20 1 0 0).port, false⟩] }
def idling : State := { holding with script := [⟨(offer 0x20 0 1 2).port, false⟩] }

theorem witness_ChangedOfferIsRefused :
    (∀ s ∈ [dropping, rewording, reloading, idling],
      s.port.rst = false ∧ s.port.cmdValid = true ∧ cmdAccepted s = false ∧ (nextCycle false s).port.rst = false) ∧
    (nextCycle false dropping).port.cmdValid = false ∧
    (nextCycle false rewording).port.cmdWord ≠ rewording.port.cmdWord ∧
    (Instr.hsumF32 ∈ [Instr.hsumF32, .hmaxU8, .hmaxS16, .logF32, .expF32] ∧
      decode reloading.port.cmdWord = .ok .hsumF32 ∧ (nextCycle false reloading).port.cmdA ≠ reloading.port.cmdA) ∧
    ((nextCycle false idling).port.cmdValid = true ∧ (nextCycle false idling).port.cmdWord = idling.port.cmdWord ∧
      (nextCycle false idling).port.cmdA = idling.port.cmdA ∧ (nextCycle false idling).port.cmdB ≠ idling.port.cmdB) := by
  decide

/-- Each form of a changed operand: a V128 view, a V64 view, `SEL`, and lane 0 of `B` for a shift. -/
theorem witness_ChangedOfferIsRefused_forms :
    (decode 0x00001101 = .ok (.view .u8x16 .u8x16) ∧ View.isHalf .u8x16 = false) ∧
    (decode 0x0000AA01 = .ok (.view .u8x8 .u8x8) ∧ View.isHalf .u8x8 = true ∧
      (0x1#128).extractLsb' 0 64 ≠ (0x2#128).extractLsb' 0 64) ∧
    decode 0x00000010 = .ok .sel ∧
    (Instr.rshiftF32 ∈ [Instr.rshiftF32, .lshiftF32] ∧ decode 0x00000030 = .ok .rshiftF32 ∧
      (0x1#128).extractLsb' 0 32 ≠ (0x2#128).extractLsb' 0 32) := by decide

/-- A step that takes an illegal response. -/
theorem witness_HostIsFaultedByIllegalResponses :
    nextIs (step { busy with queue := [⟨r2, 0⟩] }) hostFaulted = true ∧ hostFaulted { busy with queue := [⟨r2, 0⟩] } = false := by
  decide

end Sys2Proof.Tests
end

section
/-! ## The invariant of the clocked machine (O45, O46) -/

namespace Sys2Proof.Machine

/-! ### What an edge leaves in the queue and in the received responses -/

theorem maxLatency_pos {l : Latencies} (h : l.wf = true) : 0 < maxLatency l :=
  (one_le_latencyOfWord h 0).trans (latencyOfWord_le_max l 0)

/-- A command is accepted only with room, so the queue stays within its depth (10_state.md R31, R32). -/
theorem afterCommand_queue_length_le {s : State} (h : s.queue.length ≤ s.cfg.inflightMax) :
    (afterCommand s).queue.length ≤ s.cfg.inflightMax := by
  rw [afterCommand_queue, List.length_append]
  split
  · next ha =>
    obtain ⟨-, -, hroom, -⟩ := (cmdAccepted_iff s).1 ha
    simpa using hroom
  · simpa using h

theorem mem_afterCommand_queue {s : State} {e : Entry} (h : e ∈ (afterCommand s).queue) :
    e ∈ s.queue ∨ e = ⟨execWord s.cfg s.port.cmdWord s.port.cmdA s.port.cmdB s.port.cmdM,
      latencyOfWord s.cfg.lat s.port.cmdWord⟩ := by
  rw [afterCommand_queue, List.mem_append] at h
  refine h.imp_right fun hnew => ?_
  split at hnew
  · exact List.mem_singleton.1 hnew
  · cases hnew

theorem closeEdge_queue_length_le (s t : State) : (closeEdge s t).queue.length ≤ t.queue.length := by
  rw [closeEdge_queue, List.length_map]
  split
  · rw [List.length_tail]; omega
  · exact le_rfl

/-- What is queued after an edge was queued before it, and one edge has passed for it. -/
theorem mem_closeEdge_queue {s t : State} {e : Entry} (h : e ∈ (closeEdge s t).queue) :
    ∃ f ∈ t.queue, e = f.age := by
  rw [closeEdge_queue, List.mem_map] at h
  obtain ⟨f, hf, rfl⟩ := h
  refine ⟨f, ?_, rfl⟩
  split at hf
  · exact List.mem_of_mem_tail hf
  · exact hf

/-- The host receives at an edge at most the head of the queue. -/
theorem mem_closeEdge_received {s t : State} {r : Response} (h : r ∈ (closeEdge s t).received) :
    r ∈ t.received ∨ ∃ e ∈ s.queue, r = e.resp := by
  rw [closeEdge_received] at h
  split at h
  · next ht =>
    obtain ⟨e, q, hq, -, -, -, ho⟩ := rspTaken_spec ht
    rw [List.mem_append, List.mem_singleton, ho] at h
    exact h.imp_right fun hr => ⟨e, by simp [hq], hr⟩
  · exact .inl h

/-- `cmd_ready` is held back only below the bound, so the count stays within it (70_reset_and_hazards.md R149). -/
theorem closeEdge_stalled_le {s t : State} (h : t.stalled = s.stalled) :
    (closeEdge s t).stalled ≤ s.cfg.readyHoldMax := by
  rw [closeEdge_stalled, h]
  split
  · next hh =>
    simp only [holdsReady, Bool.and_eq_true, decide_eq_true_eq] at hh
    omega
  · exact Nat.zero_le _

/-! ### The parts of a step keep the invariant -/

theorem resetWith_inv {c : Config} (h : c.wf = true) : (State.resetWith c).Inv where
  config := h
  depth := by simp
  waits := by simp
  queued := by simp
  received := by simp
  resetPort := by simp
  resetQueue := by simp
  resetCount := by simp
  stall := by simp

theorem resetEdge_inv {s : State} (h : s.Inv) (hr : s.port.rst = true) : (resetEdge s).Inv where
  config := h.config
  depth := by simp
  waits := by simp
  queued := by simp
  received := h.received
  resetPort := fun _ => hr
  resetQueue := fun _ => rfl
  resetCount := by simp
  stall := by simp

/-- The invariant speaks of the port only in reset, where the new cycle still drives `rst`. -/
theorem enterCycle_inv {s : State} (c : Cycle) (h : s.Inv) : (enterCycle c s).Inv where
  config := h.config
  depth := h.depth
  waits := h.waits
  queued := h.queued
  received := h.received
  resetPort := by simp
  resetQueue := fun hr => h.resetQueue (Bool.and_eq_true_iff.1 hr).1
  resetCount := by
    have hc := h.resetCount
    cases hp : c.port.rst <;> simp [hp, hc]
  stall := h.stall

/-- An edge that samples `rst = 0` keeps the invariant: it queues at most the response of an accepted command, whose latency
one edge brings below the largest, and delivers at most the head of the queue. -/
theorem closeEdge_afterCommand_inv {s : State} (h : s.Inv) (hr : s.port.rst = false) :
    (closeEdge s (afterCommand s)).Inv := by
  have hreset : s.inReset = false := by
    by_contra hc
    simp [h.resetPort (by simpa using hc)] at hr
  have hlat : 0 < maxLatency s.cfg.lat := maxLatency_pos (Config_wf_parts h.config).2.2
  refine
    { config := by simpa using h.config
      depth := ?_
      waits := fun e he => ?_
      queued := fun e he => ?_
      received := fun r hmem => ?_
      resetPort := by simp [hreset]
      resetQueue := by simp [hreset]
      resetCount := by simpa using h.resetCount
      stall := by simpa using closeEdge_stalled_le (afterCommand_stalled s) }
  · simpa using (closeEdge_queue_length_le s _).trans (afterCommand_queue_length_le h.depth)
  · obtain ⟨f, hf, rfl⟩ := mem_closeEdge_queue he
    have hle : f.wait ≤ maxLatency s.cfg.lat := by
      obtain hold | rfl := mem_afterCommand_queue hf
      · exact (h.waits f hold).le
      · exact latencyOfWord_le_max _ _
    simp only [closeEdge_cfg, afterCommand_cfg, Entry.age]
    omega
  · obtain ⟨f, hf, rfl⟩ := mem_closeEdge_queue he
    obtain hold | rfl := mem_afterCommand_queue hf
    · exact h.queued f hold
    · exact execWord_wf _ _ _ _ _
  · obtain hold | ⟨e, he, rfl⟩ := mem_closeEdge_received hmem
    · exact h.received r (by simpa using hold)
    · exact h.queued e he

/-! ### The obligations -/

/-- Settles O45: nothing is queued, received or counted right after reset. -/
theorem invariantHoldsAtReset : Obligations.InvariantHoldsAtReset :=
  ⟨fun _ hc => resetWith_inv hc, resetWith_inv (by decide)⟩

/-- Settles O46, by the two kinds of edge of `step_cases` and the host's next cycle after either. -/
theorem stepKeepsInvariant : Obligations.StepKeepsInvariant := by
  intro s t hs hstep
  obtain ⟨hr, -, rfl⟩ | ⟨hr, rfl⟩ := step_cases hstep
  · exact enterCycle_inv _ (resetEdge_inv hs hr)
  · exact enterCycle_inv _ (closeEdge_afterCommand_inv hs hr)

end Sys2Proof.Machine
end

section
/-! ## The readings of lanes (O9) and of a lane as binary32 (O53) -/

namespace Sys2Proof.Machine

/-! ### Lanes under a view -/

theorem View.laneWidth_mul_laneCount (p : View) : View.laneWidth p * View.laneCount p = View.storageWidth p := by
  cases p <;> rfl

/-- The value of a lane of a view, read from the port: of a V64 view too, whose lanes lie in the low half
(40_view.md R70, R71, R75). -/
theorem View.laneValue_of_lt {p : View} {k : Nat} (v : V128) (h : k < View.laneCount p) :
    View.laneValue p v k =
      some (readLane (View.reading p) (v.extractLsb' (View.laneWidth p * k) (View.laneWidth p))) := by
  rw [View.laneValue, if_pos h]
  split
  · next hhalf =>
    have hend : View.laneWidth p * (k + 1) ≤ 64 :=
      calc View.laneWidth p * (k + 1) ≤ View.laneWidth p * View.laneCount p := Nat.mul_le_mul_left _ h
        _ = 64 := by rw [View.laneWidth_mul_laneCount, View.storageWidth, if_pos hhalf]
    rw [lane_toHalf v hend, lane]
  · rfl

/-- What the six pairs of views of one lane width and count are: a signed and an unsigned reading of the same lanes
(30_encoding.md R53). -/
theorem View.of_mem_integerPairs {p q : View} {w n : Nat}
    (h : (p, q, w, n) ∈ [(View.i8x16, View.u8x16, 8, 16), (.i16x8, .u16x8, 16, 8), (.i32x4, .u32x4, 32, 4),
      (.i64x2, .u64x2, 64, 2), (.i8x8, .u8x8, 8, 8), (.i64x1, .u64x1, 64, 1)]) :
    (View.reading p = .signed ∧ View.laneWidth p = w ∧ View.laneCount p = n) ∧
      View.reading q = .unsigned ∧ View.laneWidth q = w ∧ View.laneCount q = n := by
  simp only [List.mem_cons, Prod.mk.injEq, List.not_mem_nil, or_false] at h
  obtain ⟨rfl, rfl, rfl, rfl⟩ | ⟨rfl, rfl, rfl, rfl⟩ | ⟨rfl, rfl, rfl, rfl⟩ | ⟨rfl, rfl, rfl, rfl⟩ |
    ⟨rfl, rfl, rfl, rfl⟩ | ⟨rfl, rfl, rfl, rfl⟩ := h <;> decide

/-- The signed reading of a word is congruent to its unsigned one and lies in two's complement range (00_scope.md R10). -/
theorem toInt_congr_and_range {w : Nat} (b : BitVec w) :
    (b.toNat : Int) = b.toInt % 2 ^ w ∧ -2 ^ (w - 1) ≤ b.toInt ∧ b.toInt < 2 ^ (w - 1) := by
  have hpow : ((2 ^ w : Nat) : Int) = 2 ^ w := Nat.cast_pow 2 w
  refine ⟨?_, BitVec.le_toInt b, BitVec.toInt_lt⟩
  rw [BitVec.toInt_eq_toNat_bmod, ← hpow, Int.bmod_emod, ← Int.natCast_mod, Nat.mod_eq_of_lt b.isLt]

/-- Settles O9: each reading of a lane is one of the lane's bits, which for a V64 view are those of the port's low half. -/
theorem signedAndUnsignedReadings : Obligations.SignedAndUnsignedReadings := by
  intro v
  refine ⟨fun p q w n k hmem hk => ?_, fun k hk => View.laneValue_of_lt v hk, fun k hk => View.laneValue_of_lt v hk⟩
  obtain ⟨⟨hpr, rfl, hpc⟩, hqr, hqw, hqc⟩ := View.of_mem_integerPairs hmem
  have hp := View.laneValue_of_lt (p := p) v (by omega : k < _)
  have hq := View.laneValue_of_lt (p := q) v (by omega : k < _)
  rw [hpr] at hp
  rw [hqr, hqw] at hq
  exact ⟨_, _, hp, hq, rfl, toInt_congr_and_range _⟩

/-! ### A lane as binary32 -/

/-- The magnitude of a finite lane, from units to the value of 00_scope.md R11. -/
theorem magUnits_div (b : W32) : (magUnits b : ℝ) / 2 ^ 149 =
    if expField b = 0 then fracField b * (2 : ℝ) ^ (-149 : ℤ)
    else (1 + fracField b / 2 ^ 23) * (2 : ℝ) ^ ((expField b : ℤ) - 127) := by
  unfold magUnits
  split
  · rw [zpow_neg, div_eq_mul_inv]
    norm_cast
  · next he =>
    have hexp : (2 : ℝ) ^ (expField b - 1) = 2 ^ ((expField b : ℤ) - 127) * 2 ^ 126 := by
      rw [← zpow_natCast, ← zpow_natCast, ← zpow_add₀ two_ne_zero]
      congr 1
      push_cast [Nat.one_le_iff_ne_zero.2 he]
      ring
    push_cast
    rw [hexp]
    ring

theorem realOf_eq (b : W32) :
    realOf b = if signBit b then -((magUnits b : ℝ) / 2 ^ 149) else (magUnits b : ℝ) / 2 ^ 149 := by
  unfold realOf signedUnits signedOf
  split
  · push_cast; rw [neg_div]
  · push_cast; rfl

/-- Settles O53: the class by `floatVal`'s lemma for it, the value by its units. -/
theorem floatReadingIsBinary32 : Obligations.FloatReadingIsBinary32 := by
  intro b
  change (expField b = 255 → fracField b ≠ 0 → _) ∧ (expField b = 255 → fracField b = 0 → _) ∧ (expField b < 255 → _)
  refine ⟨fun he hf => ?_, fun he hf => ?_, fun he => ?_⟩
  · have hnan : isNaN b = true := by simp [isNaN, he, hf]
    exact ⟨floatVal_of_isNaN hnan, hnan⟩
  · have hinf : isInf b = true := by simp [isInf, he, hf]
    exact ⟨floatVal_of_isInf hinf, hinf⟩
  · have hfin : isFinite b = true := decide_eq_true he
    refine ⟨hfin, ?_, magUnits b, floatVal_of_isFinite hfin, magUnits_div b⟩
    rw [realOf_eq, magUnits_div]
    rfl

end Sys2Proof.Machine
end

section
/-! ## Float32 addition and multiplication (O22, O23, O24) -/

namespace Sys2Proof.Machine

/-! ### Infinities, zeros and signs -/

theorem isInf_infBits (neg : Bool) : isInf (infBits neg) = true :=
  (isInf_iff _).2 (toNat_withSign_mod (by norm_num))

@[simp] theorem signBit_infBits (neg : Bool) : signBit (infBits neg) = neg :=
  signBit_withSign (by norm_num)

/-- There are two infinities (00_scope.md R11). -/
theorem eq_infBits_of_isInf {b : W32} (h : isInf b = true) : b = infBits (signBit b) := by
  rw [infBits, ← (isInf_iff b).1 h]
  exact eq_withSign b

theorem infBits_eq (neg : Bool) : infBits neg = if neg then 0xFF800000#32 else 0x7F800000#32 := by
  cases neg <;> rfl

theorem withSign_zero (neg : Bool) : withSign neg 0 = if neg then 0x80000000#32 else 0x00000000#32 := by
  cases neg <;> rfl

/-- Every lane is a NaN, an infinity or finite (00_scope.md R11). -/
theorem isFinite_of_not_isNaN_of_not_isInf {b : W32} (hn : isNaN b = false) (hi : isInf b = false) :
    isFinite b = true := by
  have hn' := (isNaN_iff b).not.1 (by simp [hn])
  have hi' := (isInf_iff b).not.1 (by simp [hi])
  exact (isFinite_iff b).2 (by omega)

theorem isNaN_of_isFinite {b : W32} (h : isFinite b = true) : isNaN b = false := by
  have hlt := (isFinite_iff b).1 h
  have hnot := (isNaN_iff b).not.2 (by omega)
  simpa using hnot

theorem magUnits_eq_zero_iff (b : W32) : magUnits b = 0 ↔ isZero b = true := by
  simp only [magUnits, isZero, Bool.and_eq_true, beq_iff_eq]
  split <;> simp [*]

theorem isFinite_of_isZero {b : W32} (h : isZero b = true) : isFinite b = true :=
  (isFinite_iff b).2 (by rw [(isZero_iff b).1 h]; norm_num)

theorem isNaN_fneg32 (b : W32) : isNaN (fneg32 b) = isNaN b := by
  rw [Bool.eq_iff_iff, isNaN_iff, isNaN_iff, fneg32, BitVec.toNat_xor, Nat.xor_mod_two_pow]
  simp

/-! ### Signed units -/

theorem signedOf_natAbs (t : Int) : signedOf (decide (t < 0)) t.natAbs = t := by
  unfold signedOf
  split
  · next h => rw [decide_eq_true_eq] at h; omega
  · next h => rw [decide_eq_true_eq] at h; omega

theorem signedOf_xor_mul (a b : Bool) (m n : Nat) : signedOf (a ^^ b) (m * n) = signedOf a m * signedOf b n := by
  cases a <;> cases b <;> simp [signedOf]

theorem natAbs_signedUnits (b : W32) : (signedUnits b).natAbs = magUnits b := natAbs_signedOf _ _

/-! ### The exact result, rounded once -/

theorem isFinite_withSign_zero (neg : Bool) : isFinite (withSign neg 0) = true := by cases neg <;> decide

theorem signedUnits_withSign_zero (neg : Bool) : signedUnits (withSign neg 0) = 0 := by cases neg <;> decide

theorem overflowUnits_eq : overflowUnits = 2 ^ 277 - 2 ^ 252 := rfl

theorem overflowUnits_pos : 0 < overflowUnits := by decide +kernel

/-- Settles O22: `fadd32` rounds the exact sum by `roundUnits`, but for a zero sum, which it gives exactly. -/
theorem additionRoundsToNearestEven : Obligations.AdditionRoundsToNearestEven := by
  intro nan x y hx hy
  simp only [fadd32_of_isFinite hx hy, ← overflowUnits_eq]
  generalize signedUnits x + signedUnits y = sum
  rcases eq_or_ne sum 0 with rfl | hne
  · simp only [if_pos, signedUnits_withSign_zero]
    refine ⟨fun h => absurd overflowUnits_pos (Nat.not_lt.2 h),
      fun _ => ⟨isFinite_withSign_zero _, fun z _ => ⟨by simp, fun he hz => ?_⟩⟩, fun _ => withSign_zero _⟩
    exact absurd (by simpa using he.symm) hz
  · simp only [if_neg hne]
    refine ⟨fun h => ?_, fun h => ?_, fun h => absurd h hne⟩
    · rw [roundUnits_of_overflow _ (by rwa [pow_zero, mul_one]), infBits_eq]
      simp only [decide_eq_true_eq]
    · obtain ⟨hfin, -, hnear⟩ :=
        roundUnits_nearest (m := sum.natAbs) (k := 0) (decide (sum < 0)) (by rwa [pow_zero, mul_one])
      simp only [pow_zero, mul_one, signedOf_natAbs] at hnear
      exact ⟨hfin, fun z _ => hnear z⟩

/-- Settles O23: `fmul32` rounds the exact product by `roundUnits`, with the exclusive or of the signs on both sides of the
overflow threshold. -/
theorem multiplicationRoundsToNearestEven : Obligations.MultiplicationRoundsToNearestEven := by
  intro nan x y hx hy
  have hprod : signedUnits x * signedUnits y = signedOf (signBit x ^^ signBit y) (magUnits x * magUnits y) :=
    (signedOf_xor_mul ..).symm
  simp only [fmul32_of_isFinite hx hy, hprod, natAbs_signedOf, ← overflowUnits_eq]
  generalize (signBit x ^^ signBit y) = neg
  generalize magUnits x * magUnits y = m
  rcases Nat.lt_or_ge m (overflowUnits * 2 ^ 149) with hlt | hge
  · obtain ⟨hfin, hsign, hnear⟩ := roundUnits_nearest neg hlt
    exact ⟨hsign, fun h => absurd hlt (Nat.not_lt.2 h), fun _ => ⟨hfin, fun z _ => hnear z⟩⟩
  · rw [roundUnits_of_overflow neg hge]
    exact ⟨signBit_infBits neg, fun _ => isInf_infBits neg, fun h => absurd h (Nat.not_lt.2 hge)⟩

/-! ### Special operands -/

theorem fmul32_comm (nan x y : W32) : fmul32 nan x y = fmul32 nan y x := by
  unfold fmul32
  cases floatVal x with
  | nan => cases floatVal y <;> rfl
  | inf a => cases floatVal y <;> simp [Bool.xor_comm]
  | finite a m => cases floatVal y <;> simp [Bool.xor_comm, Nat.mul_comm]

theorem fadd32_of_isNaN_left {nan x : W32} (y : W32) (h : isNaN x = true) : fadd32 nan x y = nan := by
  rw [fadd32, floatVal_of_isNaN h]

theorem fmul32_of_isNaN_left {nan x : W32} (y : W32) (h : isNaN x = true) : fmul32 nan x y = nan := by
  rw [fmul32, floatVal_of_isNaN h]

theorem fadd32_of_isInf_of_isFinite {nan x y : W32} (hx : isInf x = true) (hy : isFinite y = true) :
    fadd32 nan x y = x := by
  simp only [fadd32, floatVal_of_isInf hx, floatVal_of_isFinite hy]
  exact (eq_infBits_of_isInf hx).symm

theorem fadd32_of_isInf {nan x y : W32} (hx : isInf x = true) (hy : isInf y = true) :
    fadd32 nan x y = if x = y then x else nan := by
  simp only [fadd32, floatVal_of_isInf hx, floatVal_of_isInf hy]
  have hiff : signBit x = signBit y ↔ x = y :=
    ⟨fun h => by rw [eq_infBits_of_isInf hx, eq_infBits_of_isInf hy, h], congrArg _⟩
  simp only [hiff, ← eq_infBits_of_isInf hx]

theorem fmul32_of_isInf_of_isZero {nan x y : W32} (hx : isInf x = true) (hy : isZero y = true) :
    fmul32 nan x y = nan := by
  simp [fmul32, floatVal_of_isInf hx, floatVal_of_isFinite (isFinite_of_isZero hy), (magUnits_eq_zero_iff y).2 hy]

/-- An infinity times an infinity or a finite lane other than a zero is the infinity of the product's sign. -/
theorem fmul32_of_isInf {nan x y : W32} (hx : isInf x = true) (hn : isNaN y = false) (hz : isZero y = false) :
    fmul32 nan x y = infBits (signBit x ^^ signBit y) := by
  cases hi : isInf y with
  | true => simp only [fmul32, floatVal_of_isInf hx, floatVal_of_isInf hi]
  | false =>
    have hm : magUnits y ≠ 0 := fun h => by simp [(magUnits_eq_zero_iff y).1 h] at hz
    simp only [fmul32, floatVal_of_isInf hx, floatVal_of_isFinite (isFinite_of_not_isNaN_of_not_isInf hn hi), if_neg hm]

/-- Settles O24, by the classes of the operands; addition and multiplication commute. -/
theorem arithmeticOfSpecialOperands : Obligations.ArithmeticOfSpecialOperands := by
  intro nan x y
  refine ⟨?_, fun hx hy => ?_, fadd32_of_isInf, fun hx hy => ?_, fun hx hn hz => ?_, fun _ => rfl⟩
  · rintro (hx | hy)
    · exact ⟨fadd32_of_isNaN_left _ hx, fadd32_of_isNaN_left _ hx, fmul32_of_isNaN_left _ hx⟩
    · have hy' : isNaN (fneg32 y) = true := by rw [isNaN_fneg32, hy]
      rw [fsub32, fadd32_comm, fadd32_comm nan x, fmul32_comm]
      exact ⟨fadd32_of_isNaN_left _ hy, fadd32_of_isNaN_left _ hy', fmul32_of_isNaN_left _ hy⟩
  · exact ⟨fadd32_of_isInf_of_isFinite hx hy, by rw [fadd32_comm, fadd32_of_isInf_of_isFinite hx hy]⟩
  · exact ⟨fmul32_of_isInf_of_isZero hx hy, by rw [fmul32_comm, fmul32_of_isInf_of_isZero hx hy]⟩
  · refine ⟨?_, fmul32_comm ..⟩
    rw [fmul32_of_isInf hx hn hz, infBits_eq]
    cases signBit x <;> cases signBit y <;> rfl

end Sys2Proof.Machine
end

section
/-! ## Comparison and conversion (O25) -/

namespace Sys2Proof.Machine

/-! ### The order of finite lanes -/

/-- A larger magnitude pattern stands for a larger magnitude. -/
theorem unitsOf_strictMono : StrictMono unitsOf := by
  refine strictMono_nat_of_lt_succ fun g => ?_
  unfold unitsOf
  rcases Nat.lt_or_ge (g % 2 ^ 23 + 1) (2 ^ 23) with hlow | hcarry
  · -- the exponent stays and the fraction goes up by one
    rw [show (g + 1) / 2 ^ 23 = g / 2 ^ 23 by omega, show (g + 1) % 2 ^ 23 = g % 2 ^ 23 + 1 by omega]
    split
    · exact Nat.lt_succ_self _
    · exact Nat.mul_lt_mul_of_pos_right (by omega) (by positivity)
  · -- the fraction is all ones and the exponent goes up by one
    rw [show (g + 1) / 2 ^ 23 = g / 2 ^ 23 + 1 by omega, show (g + 1) % 2 ^ 23 = 0 by omega, if_neg (Nat.succ_ne_zero _)]
    generalize he : g / 2 ^ 23 = e
    cases e with
    | zero => simp; omega
    | succ e =>
      rw [if_neg (Nat.succ_ne_zero e), Nat.add_sub_cancel, Nat.add_sub_cancel, Nat.pow_succ]
      calc (2 ^ 23 + g % 2 ^ 23) * 2 ^ e < 2 ^ 24 * 2 ^ e := Nat.mul_lt_mul_of_pos_right (by omega) (by positivity)
        _ = (2 ^ 23 + 0) * (2 ^ e * 2) := by ring

/-- A strictly increasing function of magnitudes that keeps zero keeps the order of signed values. -/
theorem signedOf_lt_signedOf_iff {f : Nat → Nat} (hf : StrictMono f) (h0 : f 0 = 0) (a b : Bool) (m n : Nat) :
    signedOf a (f m) < signedOf b (f n) ↔ signedOf a m < signedOf b n := by
  have hmn := hf.lt_iff_lt (a := m) (b := n)
  have hnm := hf.lt_iff_lt (a := n) (b := m)
  have hm := hf.lt_iff_lt (a := 0) (b := m)
  have hn := hf.lt_iff_lt (a := 0) (b := n)
  rw [h0] at hm hn
  cases a <;> cases b <;> simp only [signedOf, Bool.false_eq_true, if_false, if_true] <;> omega

theorem orderKey_eq (b : W32) : orderKey b = signedOf (signBit b) (b.toNat % 2 ^ 31) := by
  simp [orderKey, BitVec.extractLsb'_toNat]

theorem natAbs_orderKey (b : W32) : (orderKey b).natAbs = b.toNat % 2 ^ 31 := by
  rw [orderKey_eq, natAbs_signedOf]

theorem flt32_of_isNaN {x y : W32} (h : isNaN x = true ∨ isNaN y = true) : flt32 x y = false := by
  obtain h | h := h <;> simp [flt32, h]

theorem flt32_eq_of_not_isNaN {x y : W32} (hx : isNaN x = false) (hy : isNaN y = false) :
    flt32 x y = decide (orderKey x < orderKey y) := by
  simp [flt32, hx, hy]

theorem realOf_lt_realOf_iff (x y : W32) : realOf x < realOf y ↔ signedUnits x < signedUnits y := by
  rw [realOf, realOf, div_lt_div_iff_of_pos_right (by positivity), Int.cast_lt]

theorem flt32_iff_of_isFinite {x y : W32} (hx : isFinite x = true) (hy : isFinite y = true) :
    flt32 x y = true ↔ realOf x < realOf y := by
  rw [flt32_eq_of_not_isNaN (isNaN_of_isFinite hx) (isNaN_of_isFinite hy), decide_eq_true_eq, realOf_lt_realOf_iff,
    signedUnits, signedUnits, magUnits_eq, magUnits_eq, signedOf_lt_signedOf_iff unitsOf_strictMono rfl, orderKey_eq,
    orderKey_eq]

/-- The infinities are the ends of the order (log entry 12). -/
theorem flt32_inf_of_isFinite {x : W32} (hx : isFinite x = true) :
    flt32 x 0x7F800000#32 = true ∧ flt32 0xFF800000#32 x = true ∧
      flt32 0x7F800000#32 x = false ∧ flt32 x 0xFF800000#32 = false := by
  have hn := isNaN_of_isFinite hx
  have hpos : orderKey 0x7F800000#32 = 0x7F800000 := by decide
  have hneg : orderKey 0xFF800000#32 = -0x7F800000 := by decide
  have hmag := (isFinite_iff x).1 hx
  rw [← natAbs_orderKey] at hmag
  rw [flt32_eq_of_not_isNaN hn (by decide), flt32_eq_of_not_isNaN (by decide) hn,
    flt32_eq_of_not_isNaN (by decide) hn, flt32_eq_of_not_isNaN hn (by decide), hpos, hneg]
  simp only [decide_eq_true_eq, decide_eq_false_iff_not]
  omega

/-! ### Conversion -/

/-- A number of up to 24 bits is a float32: with its bits shifted up to the top of the significand it is a normal. -/
theorem exists_unitsOf_eq {a : Nat} (h : a ≤ 2 ^ 24) : ∃ g < 2 ^ 31, unitsOf g = a * 2 ^ 149 := by
  rcases Nat.eq_zero_or_pos a with rfl | hpos
  · exact ⟨0, by norm_num, by simp [unitsOf]⟩
  · have hlow : 2 ^ a.log2 ≤ a := Nat.log2_self_le hpos.ne'
    have hhigh : a < 2 ^ (a.log2 + 1) := Nat.lt_log2_self
    obtain ⟨k, q, hk, hq, hq', hval⟩ : ∃ k q, k ≤ 23 ∧ 2 ^ 23 ≤ q ∧ q ≤ 2 ^ 24 ∧ q = a * 2 ^ k := by
      rcases Nat.lt_or_ge a.log2 24 with hlog | hlog
      · refine ⟨23 - a.log2, _, by omega, ?_, ?_, rfl⟩
        · calc 2 ^ 23 = 2 ^ a.log2 * 2 ^ (23 - a.log2) := by rw [← Nat.pow_add]; congr 1; omega
            _ ≤ a * 2 ^ (23 - a.log2) := Nat.mul_le_mul_right _ hlow
        · calc a * 2 ^ (23 - a.log2) ≤ 2 ^ (a.log2 + 1) * 2 ^ (23 - a.log2) := Nat.mul_le_mul_right _ hhigh.le
            _ = 2 ^ 24 := by rw [← Nat.pow_add]; congr 1; omega
      · have : 2 ^ 24 ≤ 2 ^ a.log2 := Nat.pow_le_pow_right (by norm_num) hlog
        exact ⟨0, a, by omega, by omega, h, by simp⟩
    refine ⟨(149 - k) * 2 ^ 23 + q, by omega, ?_⟩
    rw [unitsOf_encoding hq' (.inr hq), hval, mul_assoc, ← Nat.pow_add, show k + (149 - k) = 149 by omega]

/-- `i2f32` of up to 24 bits is exact: the number itself is a float32, and none is nearer. -/
theorem i2f32_exact {n : Int} (h : n.natAbs ≤ 2 ^ 24) :
    isFinite (i2f32 n) = true ∧ signedUnits (i2f32 n) = n * 2 ^ 149 := by
  obtain ⟨g, hg, hunits⟩ := exists_unitsOf_eq h
  have hlt : n.natAbs * 2 ^ 149 < overflowUnits * 2 ^ 0 :=
    calc n.natAbs * 2 ^ 149 ≤ 2 ^ 24 * 2 ^ 149 := Nat.mul_le_mul_right _ h
      _ < overflowUnits * 2 ^ 0 := by decide +kernel
  obtain ⟨hfin, -, hnear⟩ := roundUnits_nearest (decide (n < 0)) hlt
  have hsigned : signedOf (decide (n < 0)) (n.natAbs * 2 ^ 149) = n * 2 ^ 149 := by
    conv_rhs => rw [← signedOf_natAbs n]
    unfold signedOf
    split <;> push_cast <;> ring
  obtain ⟨hle, -⟩ := hnear (withSign (decide (n < 0)) g)
  rw [signedUnits_withSign hg, hunits, hsigned] at hle
  refine ⟨hfin, ?_⟩
  rw [i2f32]
  simpa [sub_eq_zero] using hle

theorem realOf_i2f32 {n : Int} (h : n.natAbs ≤ 2 ^ 24) : realOf (i2f32 n) = n := by
  rw [realOf, (i2f32_exact h).2, Int.cast_mul, Int.cast_pow, Int.cast_ofNat]
  exact mul_div_cancel_right₀ _ (pow_ne_zero 149 two_ne_zero)

theorem floor32_eq (x : W32) : floor32 x = ⌊realOf x⌋ := by
  have hdiv := Int.floor_div_natCast (signedUnits x : ℝ) (2 ^ 149)
  rw [Int.floor_intCast] at hdiv
  rw [floor32, realOf]
  exact_mod_cast hdiv.symm

/-- Settles O25, by the lemmas above, one for each clause. -/
theorem comparisonAndConversion : Obligations.ComparisonAndConversion :=
  ⟨fun _ _ => flt32_of_isNaN, fun _ _ => flt32_iff_of_isFinite, fun _ => flt32_inf_of_isFinite, by decide,
    fun _ h => ⟨(i2f32_exact h).1, realOf_i2f32 h⟩, fun x _ => floor32_eq x⟩

end Sys2Proof.Machine
end

section
/-! ## The accuracy of a free `LOGF` or `EXPF` (O30, O35) -/

namespace Sys2Proof.Machine

theorem isNormal_iff (b : W32) : isNormal b = true ↔ 0 < expField b ∧ expField b < 0xFF := by
  simp [isNormal]

/-- The classes of 00_scope.md R11 exclude each other. -/
theorem not_special_of_isNormal {b : W32} (h : isNormal b = true) :
    isNaN b = false ∧ isZero b = false ∧ isSubnormal b = false := by
  obtain ⟨hpos, hlt⟩ := (isNormal_iff b).1 h
  simp [isNaN, isZero, isSubnormal, hpos.ne', hlt.ne]

theorem ratOf_pos_of_isNormal {b : W32} (h : isNormal b = true) (hs : signBit b = false) : 0 < ratOf b := by
  have hmag : 0 < magUnits b := by
    rw [magUnits, if_neg ((isNormal_iff b).1 h).1.ne']
    positivity
  have hunits : signedUnits b = (magUnits b : Int) := by simp [signedUnits, signedOf, hs]
  rw [ratOf, hunits]
  positivity

/-- A free `LOGF` on a positive normal (44_log.md R102, R103): the exact zero at 1, a free value within the bound, or the
reference's answer. -/
theorem logfFree_of_isNormal {nan x : W32} (maxUlp : Nat) (y : W32) (hx : isNormal x = true) (hs : signBit x = false) :
    logfFree nan maxUlp x y =
      if x = 0x3F800000#32 then 0x00000000#32 else if logWithin maxUlp x y then y else logfRef nan x := by
  have hinf : x ≠ 0x7F800000#32 := by
    rintro rfl
    revert hx
    decide
  obtain ⟨hnan, hzero, hsub⟩ := not_special_of_isNormal hx
  simp [logfFree, hnan, hzero, hsub, hs, hinf]

/-- The exact logarithm of 1 is within any bound (44_log.md R102). -/
theorem withinUlp_log_one (n : Nat) : WithinUlp n 0x00000000#32 (Real.log (realOf 0x3F800000#32)) := by
  have hone : realOf 0x3F800000#32 = 1 := by
    rw [realOf, show signedUnits 0x3F800000#32 = 2 ^ 149 by decide +kernel]
    norm_num
  have hzero : realOf 0x00000000#32 = 0 := by
    rw [realOf, show signedUnits 0x00000000#32 = 0 by decide]
    norm_num
  refine ⟨by decide, ?_⟩
  rw [hone, Real.log_one, ulpErr, hzero]
  simp

/-- Settles O30, by the soundness of the test `logWithin`. -/
theorem freeLogMeetsAccuracy : Obligations.FreeLogMeetsAccuracy := by
  intro c id x hc hx hs
  have hlogf : logf c x = logfFree c.nanOut c.logMaxUlp x (Config.freeLog id x) := by rw [logf, hc]
  rw [hlogf, logfFree_of_isNormal _ _ hx hs]
  split
  · next hone => exact .inl (hone ▸ withinUlp_log_one _)
  split
  · next hwithin => exact .inl (logWithin_sound (ratOf_pos_of_isNormal hx hs) hwithin)
  · exact .inr rfl

/-- A free `EXPF` in range, off the zeros (45_exp.md R118, R119): a free value within the bound that is no subnormal, or the
reference's answer. -/
theorem expfFree_of_inRange {nan x : W32} (maxUlp : Nat) (y : W32) (hz : isZero x = false)
    (hlo : flt32 x Config.expLo = false) (hhi : flt32 x Config.expHi = true) :
    expfFree nan maxUlp x y = if expWithin maxUlp x y && !isSubnormal y then y else expfRef nan x := by
  have hnan : isNaN x = false := by
    simp only [flt32, Bool.and_eq_true, Bool.not_eq_true'] at hhi
    exact hhi.1.1
  simp [expfFree, hnan, hhi, hlo, hz]

/-- Settles O35, by the soundness of the test `expWithin`. -/
theorem freeExpMeetsAccuracy : Obligations.FreeExpMeetsAccuracy := by
  intro c id x hc hz hlo hhi
  have hexpf : expf c x = expfFree c.nanOut c.expMaxUlp x (Config.freeExp id x) := by rw [expf, hc]
  rw [hexpf, expfFree_of_inRange _ _ hz hlo hhi]
  split
  · next hwithin =>
    rw [Bool.and_eq_true, Bool.not_eq_true'] at hwithin
    exact .inl ⟨expWithin_sound hwithin.1, hwithin.2⟩
  · exact .inr rfl

end Sys2Proof.Machine
end

section
/-! ## The host's next cycle after an edge, and what it is refused for -/

namespace Sys2Proof.Machine

theorem driveNext_of_breaksOffer {b : Bool} {s : State} (h : breaksOffer b s.port (nextCycle b s).port = true) :
    driveNext b s = .refused .changedOffer := by
  simp [driveNext, h]

theorem driveNext_of_breaksReset {b : Bool} {s : State} (h : breaksOffer b s.port (nextCycle b s).port = false)
    (h' : breaksReset s (nextCycle b s).port = true) : driveNext b s = .refused .shortReset := by
  simp [driveNext, h, h']

@[simp] theorem nextCycle_resetEdge (b : Bool) (s : State) : nextCycle b (resetEdge s) = nextCycle b s := rfl

@[simp] theorem nextCycle_closeEdge_afterCommand (b : Bool) (s : State) :
    nextCycle b (closeEdge s (afterCommand s)) = nextCycle b s := by
  simp [nextCycle]

/-- A reset ends the obligation to keep an offer (70_reset_and_hazards.md R157). -/
theorem breaksOffer_of_rst (b : Bool) {p : Port} (q : Port) (h : p.rst = true) : breaksOffer b p q = false := by
  simp [breaksOffer, h]

end Sys2Proof.Machine
end

section
/-! ## The clocked machine refines the untimed machine of R32 (O47, O41, O48) -/

namespace Sys2Proof.Machine

/-! ### Runs and the transitions of an edge -/

theorem UntimedRun.single {c : Config} {u v : Untimed} {e : Event} (h : UntimedStep c u e v) : UntimedRun c u [e] v :=
  .step _ _ _ _ _ h (.done _)

theorem UntimedRun.append {c : Config} {u v w : Untimed} {es fs : List Event} (h : UntimedRun c u es v)
    (h' : UntimedRun c v fs w) : UntimedRun c u (es ++ fs) w := by
  induction h with
  | done u => exact h'
  | step u _ _ e es head _ ih => exact .step _ _ _ _ _ head (ih h')

theorem untimedRun_single_iff {c : Config} {u v : Untimed} {e : Event} : UntimedRun c u [e] v ↔ UntimedStep c u e v := by
  refine ⟨fun h => ?_, .single⟩
  cases h with
  | step _ _ _ _ _ head tail => cases tail; exact head

/-- A transition and its label fix the state after it (10_state.md R32). -/
theorem UntimedStep.functional {c : Config} {u v v' : Untimed} {e : Event} (h : UntimedStep c u e v)
    (h' : UntimedStep c u e v') : v = v' := by
  cases h <;> cases h' <;> rfl

/-- The Accept transition of an edge, if it accepts a command (10_state.md R32). -/
def acceptEvents (s : State) : List Event :=
  if cmdAccepted s then [.accept s.port.cmdWord s.port.cmdA s.port.cmdB s.port.cmdM] else []

/-- The Respond transition of an edge, if its response is taken (10_state.md R32). -/
def respondEvents (s : State) : List Event := if rspTaken s then [.respond (rspOut s)] else []

/-- The transitions after the reset edge: `inReset` falls if the next cycle `c` releases `rst` (10_state.md R32). -/
def releaseEvents (c : Cycle) : List Event := if c.port.rst then [] else [.release]

theorem edgeEvents_of_not_rst {s : State} (t : State) (h : s.port.rst = false) :
    edgeEvents s t = acceptEvents s ++ respondEvents s := by
  simp [edgeEvents, acceptEvents, respondEvents, h]

theorem edgeEvents_enterCycle_of_rst {s : State} (c : Cycle) (u : State) (h : s.port.rst = true) :
    edgeEvents s (enterCycle c u) = .reset :: releaseEvents c := by
  rw [edgeEvents, if_pos h]
  rfl

/-- Out of reset the host's next cycle is no transition. -/
theorem untimed_enterCycle {s : State} (c : Cycle) (h : s.inReset = false) : untimed (enterCycle c s) = untimed s := by
  simp [untimed, h]

/-- The command side of an edge is an Accept transition, under its guard `|Q| < INFLIGHT_MAX`, or none. -/
theorem untimedRun_afterCommand {s : State} (h : s.inReset = false) :
    UntimedRun s.cfg (untimed s) (acceptEvents s) (untimed (afterCommand s)) := by
  rw [untimed, untimed, acceptEvents, afterCommand_queue, afterCommand_inReset, h]
  split
  · next ha =>
    obtain ⟨-, -, hroom, -⟩ := (cmdAccepted_iff s).1 ha
    simpa using UntimedRun.single (.accept _ _ _ _ _ (by simpa using hroom))
  · simpa using UntimedRun.done _

/-- The response side of an edge is a Respond transition on the head of the queue, or none. -/
theorem untimedRun_closeEdge {s : State} (h : s.inReset = false) :
    UntimedRun s.cfg (untimed (afterCommand s)) (respondEvents s) (untimed (closeEdge s (afterCommand s))) := by
  have hage : Entry.resp ∘ Entry.age = Entry.resp := rfl
  rw [untimed, untimed, respondEvents, closeEdge_queue, closeEdge_inReset, afterCommand_inReset, h, List.map_map, hage]
  split
  · next ht =>
    obtain ⟨e, q, hq, -, -, -, ho⟩ := rspTaken_spec ht
    rw [afterCommand_queue, hq, ho]
    exact .single (.respond _ _)
  · exact .done _

/-- An edge that samples `rst = 1` is a Reset transition, and the fall of `inReset` if the host then releases `rst`. -/
theorem untimedRun_resetEdge (s : State) (c : Cycle) :
    UntimedRun s.cfg (untimed s) (.reset :: releaseEvents c) (untimed (enterCycle c (resetEdge s))) := by
  refine .step _ ⟨[], true⟩ _ _ _ (.reset _ _) ?_
  rw [untimed, releaseEvents, enterCycle_queue, enterCycle_inReset, resetEdge_queue, resetEdge_inReset, Bool.true_and]
  cases c.port.rst with
  | true => exact .done _
  | false => exact .single (.release _)

theorem receivedIn_accept_append_respond (s : State) :
    receivedIn (acceptEvents s ++ respondEvents s) = if rspTaken s then [rspOut s] else [] := by
  unfold acceptEvents respondEvents
  split <;> split <;> rfl

theorem receivedIn_reset_release (c : Cycle) : receivedIn (.reset :: releaseEvents c) = [] := by
  unfold releaseEvents
  split <;> rfl

/-- In a state of the invariant `inReset` lasts only while `rst` is held (10_state.md R32). -/
theorem State.Inv.inReset_eq_false {s : State} (h : s.Inv) (hr : s.port.rst = false) : s.inReset = false := by
  by_contra hc
  simp [h.resetPort (by simpa using hc)] at hr

/-- Settles O47: a reset edge is Reset and perhaps the fall of `inReset`; any other edge is its Accept, then its Respond. -/
theorem stepRefinesUntimedMachine : Obligations.StepRefinesUntimedMachine := by
  intro s t hs hstep
  refine ⟨?_, ?_, step_cfg hstep⟩
  · obtain ⟨hr, -, rfl⟩ | ⟨hr, rfl⟩ := step_cases hstep
    · rw [edgeEvents_enterCycle_of_rst _ _ hr]
      exact untimedRun_resetEdge s _
    · have hreset := hs.inReset_eq_false hr
      rw [edgeEvents_of_not_rst _ hr, untimed_enterCycle _ (by simpa using hreset)]
      exact (untimedRun_afterCommand hreset).append (untimedRun_closeEdge hreset)
  · obtain ⟨hr, -, rfl⟩ | ⟨hr, rfl⟩ := step_cases hstep
    · rw [edgeEvents_enterCycle_of_rst _ _ hr, receivedIn_reset_release]
      simp
    · rw [edgeEvents_of_not_rst _ hr, receivedIn_accept_append_respond, enterCycle_received, closeEdge_received,
        afterCommand_received]
      split <;> simp

/-- Settles O41: the ledger of received and queued responses grows only by the command side of the edge. -/
theorem responsesAreConservedInOrder : Obligations.ResponsesAreConservedInOrder := by
  intro s t hr hstep
  obtain ⟨hr', -, -⟩ | ⟨-, rfl⟩ := step_cases hstep
  · simp [hr] at hr'
  · rw [enterCycle_received, enterCycle_queue, closeEdge_ledger, afterCommand_queue, List.map_append, List.append_assoc]
    split <;> rfl

/-! ### A clocked state for every untimed transition -/

/-- A state of configuration `c` out of reset whose queue holds the responses `q`, each ready to be taken, and whose host
drives the port `p` and goes on holding it. -/
def State.readyWith (c : Config) (q : List Response) (p : Port) : State :=
  { State.resetWith c with queue := q.map (⟨·, 0⟩), port := p }

theorem untimed_readyWith (c : Config) (q : List Response) (p : Port) :
    untimed (State.readyWith c q p) = ⟨q, false⟩ := by
  simp [untimed, State.readyWith, Function.comp_def]

theorem readyWith_inv {c : Config} {q : List Response} (p : Port) (hc : c.wf = true) (hq : q.length ≤ c.inflightMax)
    (hwf : ∀ r ∈ q, r.wf = true) : (State.readyWith c q p).Inv where
  config := hc
  depth := by simpa [State.readyWith] using hq
  waits := by simpa [State.readyWith] using fun _ _ => maxLatency_pos (Config_wf_parts hc).2.2
  queued := by simpa [State.readyWith] using hwf
  received := by simp [State.readyWith]
  resetPort := by simp [State.readyWith]
  resetQueue := by simp [State.readyWith]
  resetCount := by simp [State.readyWith]
  stall := by simp [State.readyWith]

/-- The port of a host that offers a command and takes no response. -/
def Port.offering (w : W32) (a b m : V128) : Port :=
  { Port.idle with cmdValid := true, cmdWord := w, cmdA := a, cmdB := b, cmdM := m }

theorem edgeEvents_offering {c : Config} {q : List Response} (w : W32) (a b m : V128) (t : State)
    (hroom : q.length < c.inflightMax) :
    edgeEvents (State.readyWith c q (.offering w a b m)) t = [.accept w a b m] := by
  have ha : cmdAccepted (State.readyWith c q (.offering w a b m)) = true :=
    (cmdAccepted_iff _).2 ⟨rfl, rfl, by simpa [State.readyWith] using hroom, rfl⟩
  have ht : rspTaken (State.readyWith c q (.offering w a b m)) = false := Bool.and_false _
  rw [edgeEvents_of_not_rst _ rfl, acceptEvents, respondEvents, ha, ht]
  rfl

/-- The port on which a transition out of reset happens. -/
def portOf : Event → Port
  | .accept w a b m => .offering w a b m
  | .respond _ => { Port.idle with rspReady := true }
  | .reset => { Port.idle with rst := true }
  | .release => Port.idle

/-- Each transition out of reset is the one transition of an edge. -/
theorem exists_edge_of_untimedStep {c : Config} {q : List Response} {v : Untimed} {e : Event}
    (h : UntimedStep c ⟨q, false⟩ e v) :
    ∃ t, step (State.readyWith c q (portOf e)) = .next t ∧ edgeEvents (State.readyWith c q (portOf e)) t = [e] := by
  cases h with
  | accept _ w a b m hroom => exact ⟨_, step_of_script_over rfl rfl, edgeEvents_offering w a b m _ hroom⟩
  | respond r q => exact ⟨_, step_of_script_over rfl rfl, rfl⟩
  | reset => exact ⟨_, rfl, rfl⟩

/-- Settles O48: the edge of `exists_edge_of_untimedStep` is a run of the untimed machine, whose one transition fixes the
state after it. -/
theorem everyUntimedTransitionIsAStep : Obligations.EveryUntimedTransitionIsAStep := by
  rintro c ⟨q, b⟩ v e hc (rfl : b = false) hq hwf huv
  obtain ⟨t, hstep, hev⟩ := exists_edge_of_untimedStep huv
  have hinv := readyWith_inv (portOf e) hc hq hwf
  obtain ⟨hrun, -, -⟩ := stepRefinesUntimedMachine _ _ hinv hstep
  rw [hev, untimed_readyWith, untimedRun_single_iff] at hrun
  exact ⟨_, t, rfl, hinv, untimed_readyWith .., hstep, hev, hrun.functional huv⟩

end Sys2Proof.Machine
end

section
/-! ## Reset (O36, O37) and the delivery of the oldest response (O43) -/

namespace Sys2Proof.Machine

/-! ### Reset -/

theorem running_of_rst {s : State} (h : s.port.rst = true) : running s = false := by
  simp [running, h]

theorem cmdReady_of_not_running {s : State} (h : running s = false) : cmdReady s = false := by
  simp [cmdReady, h]

theorem offered_of_not_running {s : State} (h : running s = false) : offered s = none := by
  rw [Option.eq_none_iff_forall_ne_some]
  intro e he
  obtain ⟨hrun, -⟩ := (offered_eq_some_iff s e).1 he
  simp [h] at hrun

/-- H2 at a reset edge, which is itself counted (70_reset_and_hazards.md R145). -/
theorem breaksReset_resetEdge {s : State} (q : Port) (h : s.port.rst = true) :
    breaksReset (resetEdge s) q = (!q.rst && decide (s.resetHeld + 1 < s.cfg.resetCycles)) := by
  rw [breaksReset, resetEdge_port, h, Bool.true_and]
  rfl

/-- Settles O36: every field after reset is the spec's, and only room is left to ask for `cmd_ready`. -/
theorem stateAfterReset : Obligations.StateAfterReset := by
  intro c hc
  have hroom : hasRoom (State.resetWith c) = true := decide_eq_true hc
  exact ⟨rfl, rfl, rfl, rfl, rfl, by rw [cmdReady, hroom]; rfl, rfl⟩

/-- Settles O37: the edge is `resetEdge`, then the host's next cycle, which H2 alone can refuse. -/
theorem resetEdgeClearsQueue : Obligations.ResetEdgeClearsQueue := by
  intro s hr c
  have hrun := running_of_rst hr
  have hoffer : breaksOffer false (resetEdge s).port (nextCycle false (resetEdge s)).port = false :=
    breaksOffer_of_rst _ _ hr
  refine ⟨cmdReady_of_not_running hrun, by rw [rspValid, offered_of_not_running hrun]; rfl, fun hlong => ?_,
    fun hrel hshort => ?_⟩
  · have hreset : breaksReset (resetEdge s) c.port = false := by
      rw [breaksReset_resetEdge _ hr]
      obtain hheld | hlen := hlong
      · simp [hheld]
      · simp [hlen]
    refine ⟨enterCycle c (resetEdge s), ?_, rfl, rfl, Bool.true_and _, rfl, rfl⟩
    rw [step_of_rst hr, driveNext_eq_next_iff]
    exact ⟨hoffer, hreset, rfl⟩
  · have hreset : breaksReset (resetEdge s) c.port = true := by
      rw [breaksReset_resetEdge _ hr]
      simp [hrel, hshort]
    rw [step_of_rst hr]
    exact driveNext_of_breaksReset hoffer hreset

/-! ### Delivery of the oldest response -/

/-- A host that neither resets nor stops taking responses, in this cycle or in any of its script. -/
def State.takesResponses (s : State) : Prop :=
  (s.port.rst = false ∧ s.port.rspReady = true) ∧ ∀ c ∈ s.script, c.port.rst = false ∧ c.port.rspReady = true

theorem takesResponses_enterCycle {s : State} (b : Bool) (h : s.takesResponses) {u : State} (hu : u.script = s.script) :
    (enterCycle (nextCycle b s) u).takesResponses := by
  obtain ⟨hport, hscript⟩ := h
  refine ⟨nextCycle_port (P := fun p => p.rst = false ∧ p.rspReady = true) b hport hscript fun _ _ hp => hp, ?_⟩
  rw [enterCycle_script, hu]
  exact fun c hc => hscript c (List.mem_of_mem_tail hc)

/-- A response is offered once its latency has passed, and only then (70_reset_and_hazards.md R150). -/
theorem rspTaken_of_queue_cons {s : State} {e : Entry} {q : List Entry} (hq : s.queue = e :: q) (hrun : running s = true)
    (hready : s.port.rspReady = true) : rspTaken s = decide (e.wait = 0) := by
  rw [Bool.eq_iff_iff]
  simp [rspTaken, rspValid, offered, hq, hrun, hready]

/-- An edge on which the oldest response is taken: the host has received it and nothing else. -/
theorem closeEdge_received_of_wait_zero {s : State} {e : Entry} {q : List Entry} (hq : s.queue = e :: q)
    (hrun : running s = true) (hready : s.port.rspReady = true) (hw : e.wait = 0) :
    (closeEdge s (afterCommand s)).received = s.received ++ [e.resp] := by
  have hout : rspOut s = e.resp := by
    rw [rspOut, (offered_eq_some_iff s e).2 ⟨hrun, hw, q, hq⟩]
  simp [rspTaken_of_queue_cons hq hrun hready, hw, hout]

/-- An edge on which the oldest response must still wait: nothing is received, and it has one edge less to wait. -/
theorem closeEdge_of_wait_ne_zero {s : State} {e : Entry} {q : List Entry} (hq : s.queue = e :: q)
    (hrun : running s = true) (hready : s.port.rspReady = true) (hw : e.wait ≠ 0) :
    (closeEdge s (afterCommand s)).received = s.received ∧
      ∃ q', (closeEdge s (afterCommand s)).queue = e.age :: q' := by
  simp [rspTaken_of_queue_cons hq hrun hready, hw, afterCommand_queue, hq]

/-- The oldest response is received after `e.wait + 1` edges, by induction on its wait. -/
theorem edges_deliver_oldest (n : Nat) {s : State} {e : Entry} {q : List Entry} (hw : e.wait = n) (hq : s.queue = e :: q)
    (hreset : s.inReset = false) (htakes : s.takesResponses) (hkeeps : keepsOffers (n + 1) s = true) :
    ∃ t, edges (n + 1) s = .next t ∧ t.received = s.received ++ [e.resp] := by
  induction n generalizing s e q with
  | zero =>
    obtain ⟨⟨hr, hready⟩, -⟩ := htakes
    obtain ⟨t, hstep, -, rfl⟩ := step_of_keepsOffers hr hkeeps
    exact ⟨_, edges_succ 0 hstep, closeEdge_received_of_wait_zero hq ((running_iff s).2 ⟨hr, hreset⟩) hready hw⟩
  | succ n ih =>
    obtain ⟨hr, hready⟩ := htakes.1
    obtain ⟨t, hstep, hkeeps', ht⟩ := step_of_keepsOffers hr hkeeps
    obtain ⟨hrec, q', hqueue⟩ := closeEdge_of_wait_ne_zero hq ((running_iff s).2 ⟨hr, hreset⟩) hready (by omega)
    have hq' : t.queue = e.age :: q' := by rw [ht, enterCycle_queue, hqueue]
    have hrec' : t.received = s.received := by rw [ht, enterCycle_received, hrec]
    have hreset' : t.inReset = false := by simp [ht, hreset]
    have htakes' : t.takesResponses := ht ▸ takesResponses_enterCycle _ htakes (by simp)
    obtain ⟨u, hedges, hu⟩ := ih (by simp [Entry.age, hw]) hq' hreset' htakes' hkeeps'
    exact ⟨u, by rw [edges_succ _ hstep, hedges], by rw [hu, hrec']; rfl⟩

/-- Settles O43, by `edges_deliver_oldest`; the invariant bounds the wait. -/
theorem oldestResponseIsDelivered : Obligations.OldestResponseIsDelivered :=
  fun _ e _ hq hr hreset hready hscript hkeeps =>
    ⟨edges_deliver_oldest e.wait rfl hq hreset ⟨⟨hr, hready⟩, hscript⟩ hkeeps, fun hinv => hinv.waits e (by simp [hq])⟩

end Sys2Proof.Machine
end

section
/-! ## What a command reads (O49, O51) -/

namespace Sys2Proof.Machine

/-! ### The response of a command and its operands -/

theorem execWord_of_ok {w : W32} {i : Instr} (h : decode w = .ok i) (c : Config) (a b m : V128) :
    execWord c w a b m = responseOf c i a b m := by
  simp [execWord, h]

theorem execWord_of_error {w : W32} {r : Reject} (h : decode w = .error r) (c : Config) (a b m : V128) :
    execWord c w a b m = illegalResponse := by
  simp [execWord, h]

theorem readsOfWord_of_ok {w : W32} {i : Instr} (h : decode w = .ok i) : readsOfWord w = Instr.reads i := by
  simp [readsOfWord, h]

theorem readsOfWord_of_error {w : W32} {r : Reject} (h : decode w = .error r) : readsOfWord w = ⟨0, 0, 0⟩ := by
  simp [readsOfWord, h]

/-- A V64 view reads `A[63:0]` (40_view.md R75). -/
theorem viewResult_of_isHalf {f : View} (h : f.isHalf = true) (a : V128) :
    viewResult f a = 0#64 ++ a.extractLsb' 0 64 := by
  rw [viewResult, if_pos h, ofHalf_toHalf]

/-- Settles O49: an illegal word's response is fixed, and a command's result is a function of what it reads. -/
theorem unreadOperandsDoNotMatter : Obligations.UnreadOperandsDoNotMatter := by
  intro c w a b m a' b' m' same
  refine ⟨fun r hw => ?_, fun f t hw hf ha => ?_, fun f t hw ha => ?_, fun i hi hw ha => ?_, fun i hi hw ha hb => ?_⟩
  · exact (execWord_of_error hw ..).trans (execWord_of_error hw ..).symm
  all_goals refine (execWord_of_ok hw ..).trans (.trans ?_ (execWord_of_ok hw ..).symm)
  · exact congrArg legal (by rw [viewResult_of_isHalf hf, viewResult_of_isHalf hf, ha])
  · rw [ha]; rfl
  · subst ha
    simp only [List.mem_cons, List.not_mem_nil, or_false] at hi
    obtain rfl | rfl | rfl | rfl | rfl := hi <;> rfl
  · subst ha
    have hlane : lane 32 b 0 = lane 32 b' 0 := hb
    simp only [List.mem_cons, List.not_mem_nil, or_false] at hi
    obtain rfl | rfl := hi
    · exact congrArg (fun l => legal (pack32 l _ _ _)) hlane
    · exact congrArg (fun l => legal (pack32 _ _ _ l)) hlane

/-! ### A changed offer -/

theorem sameOperands_iff (r : Reads) (p q : Port) :
    sameOperands r p q = true ↔
      p.cmdA &&& r.a = q.cmdA &&& r.a ∧ p.cmdB &&& r.b = q.cmdB &&& r.b ∧ p.cmdM &&& r.m = q.cmdM &&& r.m := by
  simp [sameOperands, and_assoc]

/-- An operand bit that the command reads differs between two ports (10_state.md R22, 40_view.md R75). -/
def operandsChanged (p q : Port) : Instr → Prop
  | .view f _ => if f.isHalf then q.cmdA.extractLsb' 0 64 ≠ p.cmdA.extractLsb' 0 64 else q.cmdA ≠ p.cmdA
  | .sel => q.cmdA ≠ p.cmdA ∨ q.cmdB ≠ p.cmdB ∨ q.cmdM ≠ p.cmdM
  | .hsumF32 | .hmaxU8 | .hmaxS16 | .logF32 | .expF32 => q.cmdA ≠ p.cmdA
  | .rshiftF32 | .lshiftF32 => q.cmdA ≠ p.cmdA ∨ q.cmdB.extractLsb' 0 32 ≠ p.cmdB.extractLsb' 0 32

/-- The masks of the table of R22 compare exactly the operand bits that the command reads. -/
theorem sameOperands_reads_eq_false_iff (i : Instr) (p q : Port) :
    sameOperands (Instr.reads i) p q = false ↔ operandsChanged p q i := by
  rw [Bool.eq_false_iff, ne_eq, sameOperands_iff, not_and_or, not_and_or]
  cases i with
  | view f t =>
    cases hf : f.isHalf <;>
      simp [Instr.reads, operandsChanged, hf, and_allBits, and_lowHalfBits_eq_iff, eq_comm]
  | sel => simp [Instr.reads, operandsChanged, and_allBits, eq_comm]
  | hsumF32 | hmaxU8 | hmaxS16 | logF32 | expF32 => simp [Instr.reads, operandsChanged, and_allBits, eq_comm]
  | rshiftF32 | lshiftF32 => simp [Instr.reads, operandsChanged, and_allBits, and_lane0Bits_eq_iff, eq_comm]

/-- The operands that a word reads differ exactly when it is legal and those of its command do (10_state.md R22). -/
theorem sameOperands_readsOfWord_eq_false_iff (w : W32) (p q : Port) :
    sameOperands (readsOfWord w) p q = false ↔ ∃ i, decode w = .ok i ∧ operandsChanged p q i := by
  cases hw : decode w with
  | ok i => simp [readsOfWord_of_ok hw, sameOperands_reads_eq_false_iff]
  | error r => simp [readsOfWord_of_error hw, sameOperands]

/-- Some instruction has the property exactly when one of the forms of the table of R22 has it. -/
theorem exists_instr_iff (P : Instr → Prop) :
    (∃ i, P i) ↔ (∃ f t, P (.view f t)) ∨ P .sel ∨ (∃ i ∈ [Instr.hsumF32, .hmaxU8, .hmaxS16, .logF32, .expF32], P i) ∨
      ∃ i ∈ [Instr.rshiftF32, .lshiftF32], P i := by
  constructor
  · rintro ⟨i, hi⟩
    cases i with
    | view f t => exact .inl ⟨f, t, hi⟩
    | sel => exact .inr (.inl hi)
    | hsumF32 | hmaxU8 | hmaxS16 | logF32 | expF32 => exact .inr (.inr (.inl ⟨_, by simp, hi⟩))
    | rshiftF32 | lshiftF32 => exact .inr (.inr (.inr ⟨_, by simp, hi⟩))
  · rintro (⟨f, t, h⟩ | h | ⟨i, -, h⟩ | ⟨i, -, h⟩) <;> exact ⟨_, h⟩

/-- H1 on a command that is offered and not accepted, with no reset on either side of the edge (70_reset_and_hazards.md
R148): the step goes on exactly if the host keeps its offer. -/
theorem step_of_pendingOffer {s : State} (hr : s.port.rst = false) (hv : s.port.cmdValid = true)
    (ha : cmdAccepted s = false) (hq : (nextCycle false s).port.rst = false) :
    step s = if keepsOffer s.port (nextCycle false s).port then
      .next (enterCycle (nextCycle false s) (closeEdge s (afterCommand s))) else .refused .changedOffer := by
  rw [step_of_not_rst hr, ha]
  split
  · next hk =>
    rw [driveNext_eq_next_iff, nextCycle_closeEdge_afterCommand]
    exact ⟨by simp [breaksOffer, hk], by simp [breaksReset, hr], rfl⟩
  · next hk =>
    apply driveNext_of_breaksOffer
    simpa [breaksOffer, hr, hv, hq] using hk

theorem keepsOffer_iff (p q : Port) :
    keepsOffer p q = true ↔
      q.cmdValid = true ∧ q.cmdWord = p.cmdWord ∧ sameOperands (readsOfWord p.cmdWord) p q = true := by
  simp [keepsOffer, and_assoc]

/-- Settles O51: the step turns on `keepsOffer`, which asks for `cmd_valid`, the word and the operands that it reads. -/
theorem changedOfferIsRefused : Obligations.ChangedOfferIsRefused := by
  intro s hr hv ha p q changed hq
  have hchanged : changed ↔ sameOperands (readsOfWord p.cmdWord) p q = false := by
    rw [sameOperands_readsOfWord_eq_false_iff, exists_instr_iff]
    exact or_congr .rfl (or_congr .rfl (or_congr (by simp [operandsChanged]) (by simp [operandsChanged])))
  rw [hchanged, step_of_pendingOffer hr hv ha hq]
  constructor
  · intro hbroken
    refine if_neg fun hk => ?_
    obtain ⟨hvalid, hword, hsame⟩ := (keepsOffer_iff p q).1 hk
    simp [hvalid, hword, hsame] at hbroken
  · intro hvalid hword hsame
    rw [if_pos ((keepsOffer_iff p q).2 ⟨hvalid, hword, by simpa using hsame⟩)]
    exact ⟨_, rfl, rfl⟩

end Sys2Proof.Machine
end

section
/-! ## Bytes and lanes of a value (O8), and the bytes that a host stores of it (O10) -/

namespace Sys2Proof.Machine

/-- A lane of a lane is a lane of the value: lanes of width `u` divide those of width `w` evenly (20_memory.md R42). -/
theorem lane_lane {n u w : Nat} (v : BitVec n) (j i : Nat) (hdvd : u ∣ w) (hi : i < w / u) :
    lane u (lane w v j) i = lane u v (j * w / u + i) := by
  obtain ⟨m, rfl⟩ := hdvd
  have hu : 0 < u := Nat.pos_of_ne_zero fun h => by simp [h] at hi
  rw [Nat.mul_div_cancel_left m hu] at hi
  have hend : u * i + u ≤ u * m := Nat.mul_le_mul_left u hi
  have hstart : u * m * j + u * i = u * (j * (u * m) / u + i) := by
    rw [Nat.mul_left_comm j, Nat.mul_div_cancel_left _ hu]; ring
  apply BitVec.eq_of_getLsbD_eq
  intro b hb
  rw [getLsbD_lane _ _ _ hb, getLsbD_lane _ _ _ (by omega), getLsbD_lane _ _ _ hb, ← Nat.add_assoc, hstart]

/-- Settles O8: bytes are lanes of width 8, and 8 divides the four lane widths. -/
theorem lanesAreBytesInOrder : Obligations.LanesAreBytesInOrder := by
  intro n _ v w hw
  have hdvd : 8 ∣ w := by
    simp only [List.mem_cons, List.not_mem_nil, or_false] at hw
    omega
  exact ⟨fun k _ b hb => getLsbD_lane v k b hb, fun j i _ hi => lane_lane v j i hdvd hi⟩

/-- The byte at each offset of a stored value (20_memory.md R44). -/
theorem storedBytes_getElem? (v : V128) {k : Nat} (hk : k < 16) : (storedBytes v)[k]? = some (lane 8 v k) := by
  simp [storedBytes, hk]

/-- A value read from bytes, bit by bit: bit `i` is bit `i % 8` of the byte at offset `i / 8`, if there is one. -/
theorem getLsbD_ofStoredBytes (bs : List (BitVec 8)) {i : Nat} (hi : i < 128) :
    (ofStoredBytes bs).getLsbD i = (bs[i / 8]?.getD 0).getLsbD (i % 8) := by
  induction bs generalizing i with
  | nil => simp [ofStoredBytes]
  | cons b bs ih =>
    simp only [ofStoredBytes, BitVec.getLsbD_or, BitVec.getLsbD_setWidth, BitVec.getLsbD_shiftLeft]
    by_cases hfirst : i < 8
    · simp [hfirst, hi, Nat.div_eq_of_lt, Nat.mod_eq_of_lt]
    · obtain ⟨i, rfl⟩ : ∃ i', i = i' + 8 := ⟨i - 8, by omega⟩
      simp [hi, ih (i := i) (by omega)]

/-- Settles O10: bit `i` of the value read back is bit `i % 8` of the stored byte `i / 8`, which is bit `i` of the value. -/
theorem storedBytesReadBack : Obligations.StoredBytesReadBack := by
  intro v
  refine ⟨BitVec.eq_of_getLsbD_eq fun i hi => ?_, fun k hk => storedBytes_getElem? v hk⟩
  rw [getLsbD_ofStoredBytes _ hi, storedBytes_getElem? v (by omega), Option.getD_some,
    getLsbD_lane _ _ _ (by omega), Nat.div_add_mod]

end Sys2Proof.Machine
end

section
/-! ## The decoder inverts the encoder (O1, O2), and the illegal words (O3, O4) -/

namespace Sys2Proof

/-! ### The words that decode to a command -/

/-- What passes the checks of the decoder before the opcode case (30_encoding.md R60). -/
theorem decode_eq_ok_iff_decodeOpcode (w : W32) (i : Instr) :
    decode w = .ok i ↔
      rsvField w = 0#16 ∧ (opField w ≠ 0x01#8 → vfromField w = 0#4 ∧ vtoField w = 0#4) ∧
        decodeOpcode (opField w) (vfromField w) (vtoField w) = .ok i := by
  unfold decode
  split_ifs with hrsv hstray
  · simp [hrsv]
  · simp only [false_iff]
    tauto
  · tauto

/-- The opcode case, with no stray view code outside `VIEW`, answers the command whose fields it is given
(30_encoding.md R53, R55, R59). -/
theorem decodeOpcode_eq_ok_iff {op : BitVec 8} {f t : BitVec 4} {i : Instr}
    (hstray : op ≠ 0x01#8 → f = 0#4 ∧ t = 0#4) :
    decodeOpcode op f t = .ok i ↔ op = i.opcode ∧ f = i.vfrom ∧ t = i.vto ∧ i.wellFormed = true := by
  constructor
  · intro h
    unfold decodeOpcode at h
    split at h
    case h_1 hop =>
      obtain rfl : op = 0x01#8 := BitVec.eq_of_toNat_eq hop
      obtain ⟨p, q, rfl, rfl, hpq, rfl⟩ := (decodeView_eq_ok_iff f t i).1 h
      exact ⟨rfl, rfl, rfl, beq_iff_eq.2 hpq⟩
    case h_10 => cases h
    all_goals
      next hop =>
        obtain ⟨hf, ht⟩ := hstray fun h1 => by simp [h1] at hop
        cases h
        exact ⟨BitVec.eq_of_toNat_eq hop, hf, ht, rfl⟩
  · rintro ⟨rfl, rfl, rfl, hwf⟩
    cases i with
    | view p q => exact (decodeView_eq_ok_iff ..).2 ⟨p, q, rfl, rfl, beq_iff_eq.1 hwf, rfl⟩
    | _ => rfl

theorem encode_eq_iff (i : Instr) (w : W32) :
    encode i = w ↔
      rsvField w = 0#16 ∧ opField w = i.opcode ∧ vfromField w = i.vfrom ∧ vtoField w = i.vto := by
  constructor
  · rintro rfl
    simp
  · rintro ⟨hrsv, hop, hfrom, hto⟩
    rw [word_eq_fields w, hrsv, hop, hfrom, hto]
    rfl

/-- Only `VIEW` carries view codes (30_encoding.md R52). -/
theorem Instr.vfrom_vto_eq_zero {i : Instr} (h : i.opcode ≠ 0x01#8) : i.vfrom = 0#4 ∧ i.vto = 0#4 := by
  cases i with
  | view p q => exact absurd rfl h
  | _ => exact ⟨rfl, rfl⟩

/-- The words that decode to a command: its own, if it is well formed (30_encoding.md R60, R66). -/
theorem decode_eq_ok_iff (w : W32) (i : Instr) : decode w = .ok i ↔ encode i = w ∧ i.wellFormed = true := by
  rw [decode_eq_ok_iff_decodeOpcode, encode_eq_iff]
  constructor
  · rintro ⟨hrsv, hstray, h⟩
    obtain ⟨hop, hfrom, hto, hwf⟩ := (decodeOpcode_eq_ok_iff hstray).1 h
    exact ⟨⟨hrsv, hop, hfrom, hto⟩, hwf⟩
  · rintro ⟨⟨hrsv, hop, hfrom, hto⟩, hwf⟩
    have hstray : opField w ≠ 0x01#8 → vfromField w = 0#4 ∧ vtoField w = 0#4 := by
      rw [hop, hfrom, hto]
      exact Instr.vfrom_vto_eq_zero
    exact ⟨hrsv, hstray, (decodeOpcode_eq_ok_iff hstray).2 ⟨hop, hfrom, hto, hwf⟩⟩

/-- Settles O1, by `decode_eq_ok_iff`. -/
theorem decodeInvertsEncode : Obligations.DecodeInvertsEncode :=
  fun i hi => (decode_eq_ok_iff (encode i) i).2 ⟨rfl, hi⟩

/-- Settles O2, by `decode_eq_ok_iff`. -/
theorem encodeInvertsDecode : Obligations.EncodeInvertsDecode :=
  fun w i => (decode_eq_ok_iff w i).1

/-! ### The legal words -/

/-- The opcodes of the command table (30_encoding.md R55). -/
def opcodes : List Nat := [0x01, 0x10, 0x20, 0x21, 0x22, 0x30, 0x31, 0x40, 0x41]

theorem exists_decodeView_eq_ok_iff (f t : BitVec 4) : (∃ i, decodeView f t = .ok i) ↔ viewPairLegal f t = true := by
  simp only [decodeView_eq_ok_iff]
  constructor
  · rintro ⟨-, p, q, rfl, rfl, hpq, -⟩
    simp [viewPairLegal_code, hpq]
  · intro h
    obtain ⟨p, q, hf, ht, hpq⟩ := viewPairLegal_cases h
    exact ⟨_, p, q, hf, ht, hpq, rfl⟩

/-- The opcode case refuses the reserved opcodes and the illegal view pairs (30_encoding.md R56, R59). -/
theorem exists_decodeOpcode_eq_ok_iff (op : BitVec 8) (f t : BitVec 4) :
    (∃ i, decodeOpcode op f t = .ok i) ↔
      op.toNat ∈ opcodes ∧ (op.toNat = 0x01 → viewPairLegal f t = true) := by
  unfold decodeOpcode
  split
  case h_1 hop => simp [hop, opcodes, exists_decodeView_eq_ok_iff]
  case h_10 =>
    refine iff_of_false (by simp) fun ⟨hop, _⟩ => ?_
    simp only [opcodes, List.mem_cons, List.not_mem_nil, or_false] at hop
    tauto
  all_goals next hop => simp [hop, opcodes]

/-- The words with a meaning: those in none of the four cases of 30_encoding.md R67. -/
theorem exists_decode_eq_ok_iff (w : W32) :
    (∃ i, decode w = .ok i) ↔
      rsvField w = 0#16 ∧ (opField w).toNat ∈ opcodes ∧
        ((opField w).toNat ≠ 0x01 → (vfromField w).toNat = 0 ∧ (vtoField w).toNat = 0) ∧
        ((opField w).toNat = 0x01 → viewPairLegal (vfromField w) (vtoField w) = true) := by
  simp only [decode_eq_ok_iff_decodeOpcode, exists_and_left, exists_decodeOpcode_eq_ok_iff, ne_eq, ← BitVec.toNat_inj,
    BitVec.toNat_ofNat, Nat.reducePow, Nat.reduceMod]
  tauto

theorem viewPairLegal_iff (f t : BitVec 4) :
    viewPairLegal f t = true ↔
      (f.toNat ≤ 0x8 ∧ t.toNat ≤ 0x8) ∨
        (0x9 ≤ f.toNat ∧ f.toNat ≤ 0xD ∧ 0x9 ≤ t.toNat ∧ t.toNat ≤ 0xD) := by
  simp [viewPairLegal, and_assoc]

theorem Machine.responseOf_illegal (c : Config) (i : Instr) (a b m : V128) :
    (Machine.responseOf c i a b m).illegal = false := by
  cases i <;> rfl

/-- Settles O3: the four cases are those in which no command is decoded. -/
theorem illegalWordsAreTheFourCases : Obligations.IllegalWordsAreTheFourCases := by
  intro c w a b m op f t illegalCase
  have hillegal : illegalCase ↔ ¬ ∃ i, decode w = .ok i := by
    rw [exists_decode_eq_ok_iff, viewPairLegal_iff]
    simp only [illegalCase, op, f, t]
    unfold rsvField opField vfromField vtoField opcodes
    tauto
  rw [hillegal]
  cases hw : decode w with
  | ok i =>
    rw [Machine.execWord_of_ok hw]
    exact ⟨fun h => absurd ⟨i, rfl⟩ h, fun _ => Machine.responseOf_illegal c i a b m⟩
  | error r =>
    rw [Machine.execWord_of_error hw]
    exact ⟨fun _ => rfl, fun h => absurd (fun ⟨_, hi⟩ => nomatch hi) h⟩

/-- Settles O4: thirteen given words, each decoded. -/
theorem listedWordsDecode : Obligations.ListedWordsDecode := by
  unfold Obligations.ListedWordsDecode
  decide

end Sys2Proof
end

section
/-! ## The written form of a command (O5) -/

namespace Sys2Proof.Machine

/-! ### Different commands are written differently -/

theorem mem_allViews (p : View) : p ∈ allViews := by cases p <;> decide

theorem View.name_injective : Function.Injective View.name := fun p q h =>
  List.inj_on_of_nodup_map (l := allViews) (by decide) (mem_allViews p) (mem_allViews q) h

/-- No view's name has the character at which the arrow of a written `VIEW` begins (30_encoding.md R53, R62). -/
theorem View.name_ne_dash (p : View) : ∀ c ∈ (View.name p).toList, (c != '-') = true := by
  cases p <;> simp [View.name]

theorem View.takeWhile_name_arrow (p : View) (rest : List Char) :
    ((View.name p).toList ++ ("->".toList ++ rest)).takeWhile (· != '-') = (View.name p).toList := by
  rw [List.takeWhile_append_of_pos (View.name_ne_dash p)]
  simp

/-- The arrow ends the source view's name, so that a written `VIEW` can be read in one way (30_encoding.md R62). -/
theorem asm_view_inj {f t f' t' : View} (h : Instr.asm (.view f t) = Instr.asm (.view f' t')) : f = f' ∧ t = t' := by
  have hchars := congrArg String.toList h
  simp only [Instr.asm, String.toList_append, List.append_assoc, List.append_cancel_left_eq] at hchars
  have hsource := congrArg (List.takeWhile (· != '-')) hchars
  rw [View.takeWhile_name_arrow, View.takeWhile_name_arrow] at hsource
  have htarget : (View.name t).toList = (View.name t').toList := by simpa [hsource] using hchars
  exact ⟨View.name_injective (String.toList_injective hsource), View.name_injective (String.toList_injective htarget)⟩

/-- The commands that carry no view codes (30_encoding.md R55). -/
def plainInstrs : List Instr := [.sel, .hsumF32, .hmaxU8, .hmaxS16, .rshiftF32, .lshiftF32, .logF32, .expF32]

theorem instr_cases (i : Instr) : (∃ f t, i = .view f t) ∨ i ∈ plainInstrs := by
  cases i with
  | view f t => exact .inl ⟨f, t, rfl⟩
  | _ => exact .inr (by decide)

theorem head?_asm_view (f t : View) : (Instr.asm (.view f t)).toList.head? = some 'V' := by
  simp [Instr.asm]

/-- How the pseudo-commands and the commands without view codes are written (30_encoding.md R62, R63). -/
def plainTexts : List String := "PASS" :: "LOW64" :: plainInstrs.map Instr.asm

theorem asm_mem_plainTexts {i : Instr} (hi : i ∈ plainInstrs) : Instr.asm i ∈ plainTexts :=
  .tail _ (.tail _ (List.mem_map_of_mem hi))

/-- No pseudo-command and no command but `VIEW` is written with a `V` in front (30_encoding.md R62, R63). -/
theorem head?_ne_of_mem_plainTexts {text : String} (h : text ∈ plainTexts) :
    text.toList.head? ≠ some 'V' := by
  revert text
  decide

theorem asm_view_ne {text : String} (f t : View) (h : text ∈ plainTexts) :
    Instr.asm (.view f t) ≠ text := by
  rintro rfl
  exact head?_ne_of_mem_plainTexts h (head?_asm_view f t)

theorem nodup_plainTexts : plainTexts.Nodup := by decide

theorem asm_injective : Function.Injective Instr.asm := by
  intro i j h
  obtain ⟨f, t, rfl⟩ | hi := instr_cases i <;> obtain ⟨f', t', rfl⟩ | hj := instr_cases j
  · obtain ⟨rfl, rfl⟩ := asm_view_inj h
    rfl
  · exact absurd h (asm_view_ne f t (asm_mem_plainTexts hj))
  · exact absurd h.symm (asm_view_ne f' t' (asm_mem_plainTexts hi))
  · exact List.inj_on_of_nodup_map nodup_plainTexts.of_cons.of_cons hi hj h

/-- No command is written like a pseudo-command (30_encoding.md R62, R63). -/
theorem asm_ne_pseudo (i : Instr) : Instr.asm i ≠ "PASS" ∧ Instr.asm i ≠ "LOW64" := by
  obtain ⟨f, t, rfl⟩ | hi := instr_cases i
  · exact ⟨asm_view_ne f t (by simp [plainTexts]), asm_view_ne f t (by simp [plainTexts])⟩
  · have hnodup := nodup_plainTexts
    simp only [plainTexts, List.nodup_cons, List.mem_cons, not_or] at hnodup
    obtain ⟨⟨-, hpass⟩, hlow, -⟩ := hnodup
    have hmem := List.mem_map_of_mem (f := Instr.asm) hi
    exact ⟨ne_of_mem_of_not_mem hmem hpass, ne_of_mem_of_not_mem hmem hlow⟩

/-! ### The assembler -/

theorem mem_allInstrs {i : Instr} (h : i.wellFormed = true) : i ∈ allInstrs := by
  obtain ⟨f, t, rfl⟩ | hi := instr_cases i
  · refine List.mem_append_left _ (List.mem_filter.2 ⟨?_, h⟩)
    exact List.mem_flatMap.2 ⟨f, mem_allViews f, List.mem_map_of_mem (mem_allViews t)⟩
  · exact List.mem_append_right _ hi

/-- A search by the value of an injective function finds the element that has it. -/
theorem find?_eq_some_of_injective {α β : Type} [DecidableEq β] {g : α → β} (hg : Function.Injective g) {x : α}
    {l : List α} (hx : x ∈ l) : (l.find? fun y => g y = g x) = some x := by
  cases hfind : l.find? fun y => g y = g x with
  | none => simpa using List.find?_eq_none.1 hfind x hx
  | some y => exact congrArg some (hg (by simpa using List.find?_some hfind))

theorem assemble_asm {i : Instr} (h : i.wellFormed = true) : assemble (Instr.asm i) = some (encode i) := by
  obtain ⟨hpass, hlow⟩ := asm_ne_pseudo i
  rw [assemble, if_neg hpass, if_neg hlow, find?_eq_some_of_injective asm_injective (mem_allInstrs h)]
  rfl

/-- Settles O5: no two commands or pseudo-commands are written alike, so the assembler finds the one written. -/
theorem writtenCommandsAssemble : Obligations.WrittenCommandsAssemble :=
  ⟨fun _ => assemble_asm, by decide, by decide⟩

end Sys2Proof.Machine
end

section
/-! ## An edge out of reset runs the decoded command (O38) -/

namespace Sys2Proof.Machine

theorem holdsReady_eq_false_iff (s : State) :
    holdsReady s = false ↔ ¬(s.hold = true ∧ s.stalled < s.cfg.readyHoldMax) := by
  rw [← Bool.not_eq_true, holdsReady, Bool.and_eq_true, decide_eq_true_eq]

theorem exec_eq_afterCommand {s : State} {i : Instr} (ha : cmdAccepted s = true)
    (hw : decode s.port.cmdWord = .ok i) : exec i s = .next (afterCommand s) := by
  rw [← commandPhase_eq, commandPhase, if_pos ha, hw]

theorem afterCommand_of_not_accepted {s : State} (ha : cmdAccepted s = false) : afterCommand s = s := by
  simp [afterCommand, ha]

/-- Settles O38: `exec` of the decoded command is the command side of an edge that accepts it. -/
theorem stepRunsTheDecodedCommand : Obligations.StepRunsTheDecodedCommand := by
  intro s i hr hw
  refine ⟨?_, fun ha u hu => ?_, fun ha => ?_⟩
  · rw [cmdAccepted_iff, running_iff, holdsReady_eq_false_iff]
    simp [hr]
  · rw [exec_eq_afterCommand ha hw, Host.Outcome.next.injEq] at hu
    rw [step_of_not_rst hr, ha, hu]
  · rw [step_of_not_rst hr, ha, afterCommand_of_not_accepted ha]

end Sys2Proof.Machine
end

section
/-! ## View changes (O6, O7) -/

namespace Sys2Proof.Machine

theorem viewResult_of_not_isHalf {f : View} (h : f.isHalf = false) (a : V128) : viewResult f a = a := by
  simp [viewResult, h]

theorem viewResult_eq_ite (f : View) (a : V128) :
    viewResult f a = if f.isHalf then 0#64 ++ a.extractLsb' 0 64 else a := by
  cases h : f.isHalf
  case false => exact viewResult_of_not_isHalf h a
  case true => exact viewResult_of_isHalf h a

/-- The word of `VIEW f->t` in fields (30_encoding.md R50, R55). -/
theorem encode_view (f t : View) : encode (.view f t) = 0#16 ++ t.code ++ f.code ++ 0x01#8 := rfl

/-- Settles O6: the word is `encode` of the command, and every command only queues its response. -/
theorem viewResultHolds : Obligations.ViewResult := by
  intro f t s hwf
  rw [← encode_view, exec_eq_respond, ← viewResult_eq_ite]
  exact ⟨decodeInvertsEncode (.view f t) hwf, rfl⟩

theorem execWord_encode {i : Instr} (h : i.wellFormed = true) (c : Config) (a b m : V128) :
    execWord c (encode i) a b m = responseOf c i a b m :=
  execWord_of_ok (decodeInvertsEncode i h) c a b m

theorem execWord_encode_view {p q : View} (h : p.isHalf = q.isHalf) (c : Config) (a b m : V128) :
    execWord c (encode (.view p q)) a b m = legal (viewResult p a) :=
  execWord_encode (i := .view p q) (beq_iff_eq.2 h) c a b m

/-- A value already cut to the storage of `p` passes any view of that storage unchanged (40_view.md R72). -/
theorem viewResult_viewResult {p q : View} (h : p.isHalf = q.isHalf) (a : V128) :
    viewResult q (viewResult p a) = viewResult p a := by
  cases hp : p.isHalf
  case false => exact viewResult_of_not_isHalf (h ▸ hp) _
  case true =>
    rw [viewResult_of_isHalf (h ▸ hp), viewResult_of_isHalf hp, BitVec.extractLsb'_append_eq_right]

/-- Settles O7, by `viewResult_viewResult`: both changes answer `viewResult p v`. -/
theorem viewAliasing : Obligations.ViewAliasing := by
  intro c p q v b m b' m' hpq there back
  have hthere : there = legal (viewResult p v) := execWord_encode_view hpq c v b m
  have hback : back = legal (viewResult p v) := by
    calc back = legal (viewResult q there.data) := execWord_encode_view hpq.symm c _ b' m'
      _ = legal (viewResult q (viewResult p v)) := by rw [hthere]; rfl
      _ = legal (viewResult p v) := by rw [viewResult_viewResult hpq]
  rw [hthere, hback]
  refine ⟨rfl, rfl, fun hp => ?_, fun hp => ?_⟩
  · exact ⟨viewResult_of_not_isHalf hp v, viewResult_of_not_isHalf hp v⟩
  · exact ⟨viewResult_of_isHalf hp v, viewResult_of_isHalf hp v⟩

end Sys2Proof.Machine
end

section
/-! ## The bitwise blend of `SEL` (O11, O12, O13) -/

namespace Sys2Proof.Machine

/-- Bit by bit the blend is the choice of 41_select.md R80. -/
theorem getLsbD_selResult (a b m : V128) (i : Nat) :
    (selResult a b m).getLsbD i = if m.getLsbD i then b.getLsbD i else a.getLsbD i := by
  have hbound : (decide (i < 128) && a.getLsbD i) = a.getLsbD i := by
    simpa using a.lt_of_getLsbD
  simp only [selResult, BitVec.getLsbD_or, BitVec.getLsbD_and, BitVec.getLsbD_not]
  cases m.getLsbD i
  case false => simpa [Bool.and_comm] using hbound
  case true => simp

theorem execWord_sel (c : Config) (a b m : V128) : execWord c 0x10 a b m = legal (selResult a b m) :=
  execWord_encode (i := .sel) rfl c a b m

/-- Settles O11: every command only queues its response, and the bits of the blend are `getLsbD_selResult`. -/
theorem selResultHolds : Obligations.SelResult := by
  refine ⟨decodeInvertsEncode .sel rfl, fun s => ?_⟩
  exact ⟨selResult s.port.cmdA s.port.cmdB s.port.cmdM, exec_eq_respond .sel s, rfl,
    fun i _ => getLsbD_selResult _ _ _ i⟩

/-! ### Lanes under a uniform mask -/

/-- `SEL` blends each lane under the mask's own lane. -/
theorem getLsbD_lane_selResult (a b m : V128) {w i : Nat} (k : Nat) (hi : i < w) :
    (lane w (selResult a b m) k).getLsbD i =
      if (lane w m k).getLsbD i then (lane w b k).getLsbD i else (lane w a k).getLsbD i := by
  simp only [getLsbD_lane _ _ _ hi, getLsbD_selResult]

theorem lane_selResult_of_allOnes {m : V128} {w k : Nat} (h : lane w m k = BitVec.allOnes w) (a b : V128) :
    lane w (selResult a b m) k = lane w b k := by
  apply BitVec.eq_of_getLsbD_eq
  intro i hi
  rw [getLsbD_lane_selResult a b m k hi, h, BitVec.getLsbD_allOnes, if_pos (decide_eq_true hi)]

theorem lane_selResult_of_zero {m : V128} {w k : Nat} (h : lane w m k = 0) (a b : V128) :
    lane w (selResult a b m) k = lane w a k := by
  apply BitVec.eq_of_getLsbD_eq
  intro i hi
  rw [getLsbD_lane_selResult a b m k hi, h, BitVec.ofNat_eq_ofNat, BitVec.getLsbD_zero, if_neg Bool.false_ne_true]

/-- Settles O12: each lane is chosen by its own mask lane, whatever the other mask lanes are. -/
theorem selLaneUniformMask : Obligations.SelLaneUniformMask := by
  intro c a b m w _ _ k _
  rw [execWord_sel]
  exact ⟨fun h => lane_selResult_of_allOnes h a b, fun h => lane_selResult_of_zero h a b⟩

/-! ### The laws of R84 -/

theorem selResult_zero (a b : V128) : selResult a b 0 = a := by
  rw [selResult, BitVec.ofNat_eq_ofNat, BitVec.not_zero, BitVec.and_allOnes, BitVec.and_zero, BitVec.or_zero]

theorem selResult_allOnes (a b : V128) : selResult a b (BitVec.allOnes 128) = b := by
  rw [selResult, BitVec.not_allOnes, BitVec.and_zero, BitVec.and_allOnes, BitVec.zero_or]

theorem selResult_self (a m : V128) : selResult a a m = a := by
  apply BitVec.eq_of_getLsbD_eq
  intro i _
  rw [getLsbD_selResult, ite_self]

theorem selResult_not (a b m : V128) : selResult a b (~~~m) = selResult b a m := by
  rw [selResult, selResult, BitVec.not_not, BitVec.or_comm]

theorem selResult_selResult (a b m : V128) : selResult (selResult a b m) b m = selResult a b m := by
  apply BitVec.eq_of_getLsbD_eq
  intro i _
  rw [getLsbD_selResult, getLsbD_selResult]
  split <;> rfl

/-- Settles O13: the laws of the blend, read through the word of `SEL`. -/
theorem selLaws : Obligations.SelLaws := by
  intro c a b m sel
  have hsel (x y z : V128) : sel x y z = selResult x y z := congrArg Response.data (execWord_sel c x y z)
  simp only [hsel]
  exact ⟨selResult_zero a b, selResult_allOnes a b, selResult_self a m, selResult_not a b m,
    selResult_selResult a b m⟩

end Sys2Proof.Machine
end

section
/-! ## The tree sum of `HSUM.F32` (O14, O15) -/

namespace Sys2Proof.Machine

/-- Settles O14: every command only queues its response, and zero-extension puts 96 zeros above the sum. -/
theorem hsumResultHolds : Obligations.HsumResult := by
  refine ⟨decodeInvertsEncode .hsumF32 rfl, fun s => ?_⟩
  rw [exec_eq_respond, responseOf, hsumResult, setWidth_eq_zero_append (m := 96)]
  rfl

theorem execWord_hsumF32 (c : Config) (a b m : V128) : execWord c 0x20 a b m = legal (hsumResult c.nanOut a) :=
  execWord_encode (i := .hsumF32) rfl c a b m

theorem hsumLane_pack32 (nan l0 l1 l2 l3 : W32) :
    hsumLane nan (pack32 l0 l1 l2 l3) = fadd32 nan (fadd32 nan l0 l1) (fadd32 nan l2 l3) := by
  simp only [hsumLane, lane_pack32_0, lane_pack32_1, lane_pack32_2, lane_pack32_3]

/-- Settles O15: each swap is the commutativity of one of the tree's three additions. -/
theorem hsumSwaps : Obligations.HsumSwaps := by
  intro c l0 l1 l2 l3 b m hsum
  have hsum_pack32 (x0 x1 x2 x3 : W32) : hsum (pack32 x0 x1 x2 x3) =
      legal ((fadd32 c.nanOut (fadd32 c.nanOut x0 x1) (fadd32 c.nanOut x2 x3)).setWidth 128) := by
    rw [← hsumLane_pack32]
    exact execWord_hsumF32 c _ b m
  simp only [hsum_pack32]
  refine ⟨?_, ?_, ?_⟩
  · rw [fadd32_comm c.nanOut l1 l0]
  · rw [fadd32_comm c.nanOut l3 l2]
  · rw [fadd32_comm c.nanOut (fadd32 c.nanOut l2 l3)]

end Sys2Proof.Machine
end

section
/-! ## The maxima `HMAX.U8` and `HMAX.S16` (O16, O17, O18) -/

namespace Sys2Proof.Machine

/-! ### The largest lane, under a reading that the lane's bits give back -/

/-- A maximum over lanes, put back into a lane, is one of the lanes, and no lane reads larger. -/
theorem ofInt_maxUpTo_spec {w : Nat} {value : BitVec w → Int} (hvalue : ∀ x, BitVec.ofInt w (value x) = x)
    (l : Nat → BitVec w) (n : Nat) :
    (∃ k < n + 1, BitVec.ofInt w (maxUpTo (fun k => value (l k)) n) = l k) ∧
      ∀ k < n + 1, value (l k) ≤ value (BitVec.ofInt w (maxUpTo (fun k => value (l k)) n)) := by
  obtain ⟨⟨j, hj, hmax⟩, hle⟩ := maxUpTo_spec (fun k => value (l k)) n
  have hlane : BitVec.ofInt w (maxUpTo (fun k => value (l k)) n) = l j := by rw [hmax, hvalue]
  refine ⟨⟨j, Nat.lt_succ_of_le hj, hlane⟩, fun k hk => ?_⟩
  calc value (l k) ≤ maxUpTo (fun k => value (l k)) n := hle k (Nat.le_of_lt_succ hk)
    _ = value (BitVec.ofInt w (maxUpTo (fun k => value (l k)) n)) := by rw [hlane, hmax]

theorem ofInt_toNat {w : Nat} (x : BitVec w) : BitVec.ofInt w (x.toNat : Int) = x := by
  rw [BitVec.ofInt_natCast, BitVec.ofNat_toNat, BitVec.setWidth_eq]

/-- Settles O16, by `ofInt_maxUpTo_spec` for the unsigned reading. -/
theorem hmaxU8ResultHolds : Obligations.HmaxU8Result := by
  refine ⟨decodeInvertsEncode .hmaxU8 rfl, fun s => ?_⟩
  obtain ⟨hlane, hle⟩ :=
    ofInt_maxUpTo_spec (value := fun x : BitVec 8 => (x.toNat : Int)) ofInt_toNat (lane 8 s.port.cmdA) 15
  refine ⟨_, ?_, hlane, fun k hk => Int.ofNat_le.1 (hle k hk)⟩
  rw [exec_eq_respond, responseOf, hmaxU8Result, setWidth_eq_zero_append (m := 120)]
  rfl

/-- Settles O17, by `ofInt_maxUpTo_spec` for the signed reading. -/
theorem hmaxS16ResultHolds : Obligations.HmaxS16Result := by
  refine ⟨decodeInvertsEncode .hmaxS16 rfl, fun s => ?_⟩
  obtain ⟨hlane, hle⟩ :=
    ofInt_maxUpTo_spec (value := BitVec.toInt) (fun _ => BitVec.ofInt_toInt) (lane 16 s.port.cmdA) 7
  refine ⟨_, ?_, hlane, hle⟩
  rw [exec_eq_respond, responseOf, hmaxS16Result, setWidth_eq_zero_append (m := 112)]
  rfl

/-! ### The order of the lanes -/

theorem maxUpTo_le_of_forall_exists {x y : Nat → Int} {n : Nat}
    (h : ∀ k : Fin (n + 1), ∃ j : Fin (n + 1), x k = y j) : maxUpTo x n ≤ maxUpTo y n := by
  obtain ⟨k, hk, hx⟩ := (maxUpTo_spec x n).1
  obtain ⟨j, hj⟩ := h ⟨k, Nat.lt_succ_of_le hk⟩
  calc maxUpTo x n = y j := hx.trans hj
    _ ≤ maxUpTo y n := (maxUpTo_spec y n).2 j (Nat.le_of_lt_succ j.isLt)

theorem maxUpTo_eq_of_perm {x y : Nat → Int} {n : Nat} (σ : Equiv.Perm (Fin (n + 1)))
    (h : ∀ k : Fin (n + 1), x k = y (σ k)) : maxUpTo x n = maxUpTo y n := by
  apply le_antisymm
  · exact maxUpTo_le_of_forall_exists fun k => ⟨σ k, h k⟩
  · exact maxUpTo_le_of_forall_exists fun k => ⟨σ.symm k, by rw [h, σ.apply_symm_apply]⟩

theorem execWord_hmaxU8 (c : Config) (a b m : V128) : execWord c 0x21 a b m = legal (hmaxU8Result a) :=
  execWord_encode (i := .hmaxU8) rfl c a b m

theorem execWord_hmaxS16 (c : Config) (a b m : V128) : execWord c 0x22 a b m = legal (hmaxS16Result a) :=
  execWord_encode (i := .hmaxS16) rfl c a b m

/-- Settles O18: a permutation of the lanes permutes their readings, and `maxUpTo_eq_of_perm` compares the maxima. -/
theorem maximaIgnoreLaneOrder : Obligations.MaximaIgnoreLaneOrder := by
  intro c u v b m
  constructor
  · intro σ h
    have hmax : maxUpTo (fun k => ((lane 8 v k).toNat : Int)) 15 = maxUpTo (fun k => ((lane 8 u k).toNat : Int)) 15 :=
      maxUpTo_eq_of_perm σ fun k => by rw [h k]
    rw [execWord_hmaxU8, execWord_hmaxU8, hmaxU8Result, hmaxU8Result, hmax]
  · intro σ h
    have hmax : maxUpTo (fun k => (lane 16 v k).toInt) 7 = maxUpTo (fun k => (lane 16 u k).toInt) 7 :=
      maxUpTo_eq_of_perm σ fun k => by rw [h k]
    rw [execWord_hmaxS16, execWord_hmaxS16, hmaxS16Result, hmaxS16Result, hmax]

end Sys2Proof.Machine
end

section
/-! ## The lane shifts `RSHIFT.F32` and `LSHIFT.F32` (O19, O20, O21) -/

namespace Sys2Proof.Machine

/-! ### The results as bit fields -/

/-- Three neighbouring lanes side by side are one field of the port (00_scope.md R9). -/
theorem lanes_append_eq_extractLsb' (v : V128) (k : Nat) :
    lane 32 v (k + 2) ++ lane 32 v (k + 1) ++ lane 32 v k = v.extractLsb' (32 * k) 96 := by
  simp only [lane]
  rw [BitVec.extractLsb'_append_extractLsb'_eq_extractLsb' (by omega),
    BitVec.extractLsb'_append_extractLsb'_eq_extractLsb' (by omega)]

theorem rshiftResult_eq_append (a b : V128) :
    rshiftResult a b = a.extractLsb' 0 96 ++ b.extractLsb' 0 32 :=
  congrArg (· ++ lane 32 b 0) (lanes_append_eq_extractLsb' a 0)

theorem lshiftResult_eq_append (a b : V128) :
    lshiftResult a b = b.extractLsb' 0 32 ++ a.extractLsb' 32 96 := by
  rw [← lanes_append_eq_extractLsb' a 1, BitVec.append_assoc', BitVec.append_assoc']
  rfl

/-- Settles O19: every command only queues its response, and lanes 0 to 2 of `A` are its low 96 bits. -/
theorem rshiftResultHolds : Obligations.RshiftResult := by
  refine ⟨decodeInvertsEncode .rshiftF32 rfl, fun s => ?_⟩
  rw [exec_eq_respond, responseOf, rshiftResult_eq_append]
  rfl

/-- Settles O20: every command only queues its response, and lanes 1 to 3 of `A` are its high 96 bits. -/
theorem lshiftResultHolds : Obligations.LshiftResult := by
  refine ⟨decodeInvertsEncode .lshiftF32 rfl, fun s => ?_⟩
  rw [exec_eq_respond, responseOf, lshiftResult_eq_append]
  rfl

/-! ### The round trips of R98 -/

theorem execWord_rshiftF32 (cfg : Config) (a b m : V128) : execWord cfg 0x30 a b m = legal (rshiftResult a b) :=
  execWord_encode (i := .rshiftF32) rfl cfg a b m

theorem execWord_lshiftF32 (cfg : Config) (a b m : V128) : execWord cfg 0x31 a b m = legal (lshiftResult a b) :=
  execWord_encode (i := .lshiftF32) rfl cfg a b m

/-- A right shift loses lane 3, which the left shift after it fills from its own injected lane. -/
theorem lshiftResult_rshiftResult (a b c : V128) :
    lshiftResult (rshiftResult a b) c = pack32 (lane 32 a 0) (lane 32 a 1) (lane 32 a 2) (lane 32 c 0) := by
  simp only [lshiftResult, rshiftResult, lane_pack32_1, lane_pack32_2, lane_pack32_3]

/-- A left shift loses lane 0, which the right shift after it fills from its own injected lane. -/
theorem rshiftResult_lshiftResult (a b c : V128) :
    rshiftResult (lshiftResult a b) c = pack32 (lane 32 c 0) (lane 32 a 1) (lane 32 a 2) (lane 32 a 3) := by
  simp only [rshiftResult, lshiftResult, lane_pack32_0, lane_pack32_1, lane_pack32_2]

theorem pack32_eq_iff (l0 l1 l2 l3 : W32) (v : V128) :
    pack32 l0 l1 l2 l3 = v ↔ l0 = lane 32 v 0 ∧ l1 = lane 32 v 1 ∧ l2 = lane 32 v 2 ∧ l3 = lane 32 v 3 := by
  rw [← pack32_inj, pack32_lanes]

/-- Settles O21: each round trip keeps all lanes but the one that the second shift injects. -/
theorem shiftRoundTrips : Obligations.ShiftRoundTrips := by
  intro cfg m a b c rshift lshift
  have hrshift (x y : V128) : rshift x y = rshiftResult x y := congrArg Response.data (execWord_rshiftF32 cfg x y m)
  have hlshift (x y : V128) : lshift x y = lshiftResult x y := congrArg Response.data (execWord_lshiftF32 cfg x y m)
  simp only [hrshift, hlshift]
  refine ⟨lshiftResult_rshiftResult a b c, ?_, rshiftResult_lshiftResult a b c, ?_, ?_⟩
  · simp only [lshiftResult_rshiftResult, pack32_eq_iff, true_and]
  · simp only [rshiftResult_lshiftResult, pack32_eq_iff, and_true]
  · rw [rshiftResult_lshiftResult, pack32_lanes]

end Sys2Proof.Machine
end

section
/-! ## The logarithm `LOG.F32` (O26, O27, O28, O29) -/

namespace Sys2Proof.Machine

/-- Settles O26: every command only queues its response, and the result maps the lanes. -/
theorem logResultHolds : Obligations.LogResult := by
  refine ⟨decodeInvertsEncode .logF32 rfl, fun s => ?_⟩
  exact ⟨logResult s.cfg s.port.cmdA, exec_eq_respond .logF32 s, fun _ hk => lane_mapLanes32 _ _ hk⟩

/-! ### The branches of `LOGF`, the reference and a free one -/

theorem logf_of_reference {c : Config} (h : c.logImpl = .reference) (x : W32) : logf c x = logfRef c.nanOut x := by
  rw [logf, h]

theorem logf_of_free {c : Config} {id : Nat} (h : c.logImpl = .free id) (x : W32) :
    logf c x = logfFree c.nanOut c.logMaxUlp x (Config.freeLog id x) := by
  rw [logf, h]

/-- What the reference and every free `LOGF` answer on a lane, each configuration answers on it (44_log.md R105). -/
theorem logf_eq_of_every_impl {c : Config} {x v : W32} (href : logfRef c.nanOut x = v)
    (hfree : ∀ y, logfFree c.nanOut c.logMaxUlp x y = v) : logf c x = v := by
  cases h : c.logImpl with
  | reference => rw [logf_of_reference h, href]
  | free id => rw [logf_of_free h, hfree]

theorem logf_of_isNaN (c : Config) {x : W32} (h : isNaN x = true) : logf c x = c.nanOut :=
  logf_eq_of_every_impl (by simp [logfRef, h]) fun _ => by simp [logfFree, h]

theorem isNaN_of_isZero {b : W32} (h : isZero b = true) : isNaN b = false :=
  isNaN_of_isFinite (isFinite_of_isZero h)

theorem logf_of_isZero (c : Config) {x : W32} (h : isZero x = true) : logf c x = 0xFF800000#32 := by
  have hnan := isNaN_of_isZero h
  exact logf_eq_of_every_impl (by simp [logfRef, hnan, h]) fun _ => by simp [logfFree, hnan, h]

/-- Of the negative lanes only `-0` has a logarithm (44_log.md R101). -/
theorem logf_of_signBit (c : Config) {x : W32} (hnan : isNaN x = false) (hzero : isZero x = false)
    (hs : signBit x = true) : logf c x = c.nanOut :=
  logf_eq_of_every_impl (by simp [logfRef, hnan, hzero, hs]) fun _ => by simp [logfFree, hnan, hzero, hs]

theorem logf_posInf (c : Config) : logf c 0x7F800000#32 = 0x7F800000#32 := by
  have hnan : isNaN 0x7F800000#32 = false := by decide
  have hzero : isZero 0x7F800000#32 = false := by decide
  have hs : signBit 0x7F800000#32 = false := by decide
  exact logf_eq_of_every_impl (by simp [logfRef, hnan, hzero, hs]) fun _ => by simp [logfFree, hnan, hzero, hs]

theorem isZero_of_signBit_of_ne {x : W32} (hs : signBit x = true) (hne : x ≠ 0x80000000#32) : isZero x = false := by
  by_contra hc
  have hz := (isZero_iff x).1 (by simpa using hc)
  refine hne ?_
  rw [eq_withSign x, hs, hz]
  rfl

/-! ### The reference at 1, where the reduced argument and the exponent are `+0` -/

theorem fmul32_zero {nan y : W32} (h : isFinite y = true) : fmul32 nan y 0x00000000#32 = withSign (signBit y) 0 := by
  rw [fmul32_of_isFinite h (by decide), show signBit 0x00000000#32 = false by decide, Bool.xor_false,
    show magUnits 0x00000000#32 = 0 by decide, Nat.mul_zero]
  cases signBit y <;> decide

/-- At `t = +0` a step of Horner's rule leaves only its coefficient. -/
theorem hornerStep_at_zero {nan y q : W32} (hy : isFinite y = true)
    (hq : (isFinite (withSign (signBit y) 0) && isFinite q && fadd32 0 (withSign (signBit y) 0) q == q) = true) :
    fadd32 nan (fmul32 nan y 0x00000000#32) q = q := by
  rw [fmul32_zero hy, fadd32_lit hq]

theorem logPoly_at_zero (nan : W32) : logPoly nan 0x00000000#32 = 0x3EAAAAAA#32 := by
  simp (disch := decide) only [logPoly, hornerStep_at_zero]

/-- With no argument and no exponent left, every product of the recombination is a zero, and so is each sum. -/
theorem logCombine_at_zero (nan : W32) : logCombine nan 0x00000000#32 0x00000000#32 = 0x00000000#32 := by
  have hz : fmul32 nan 0x00000000#32 0x00000000#32 = 0x00000000#32 := fmul32_lit (by decide)
  have hpoly : fmul32 nan 0x3EAAAAAA#32 0x00000000#32 = 0x00000000#32 := fmul32_lit (by decide)
  have hq1 : fmul32 nan 0x00000000#32 0xB95E8083#32 = 0x80000000#32 := fmul32_lit (by decide)
  have hhalf : fmul32 nan 0x00000000#32 0x3F000000#32 = 0x00000000#32 := fmul32_lit (by decide)
  have hq2 : fmul32 nan 0x00000000#32 0x3F318000#32 = 0x00000000#32 := fmul32_lit (by decide)
  have hneg : fadd32 nan 0x00000000#32 0x80000000#32 = 0x00000000#32 := fadd32_lit (by decide)
  have hsub : fsub32 nan 0x00000000#32 0x00000000#32 = 0x00000000#32 := fadd32_lit (by decide)
  have hadd : fadd32 nan 0x00000000#32 0x00000000#32 = 0x00000000#32 := fadd32_lit (by decide)
  simp only [logCombine, logPoly_at_zero, hz, hpoly, hq1, hhalf, hq2, hneg, hsub, hadd]

/-- 1 is `2^1 * 1/2`, whose factor of 2 moves from the exponent into the mantissa (44_log.md R106). -/
theorem logReduce_one (nan : W32) : logReduce nan 0x3F800000#32 0 = 0x00000000#32 := by
  have hexp : i2f32 ((expField 0x3F800000#32 : Int) - 126 + 0) = 0x3F800000#32 := by decide
  have hmant : 0x3F000000#32 ||| (0x3F800000#32 &&& 0x007FFFFF#32) = 0x3F000000#32 := by decide
  have hlow : flt32 0x3F000000#32 0x3F3504F3#32 = true := by decide
  have he : fsub32 nan 0x3F800000#32 0x3F800000#32 = 0x00000000#32 := fadd32_lit (by decide)
  have hhalf : fsub32 nan 0x3F000000#32 0x3F800000#32 = 0xBF000000#32 := fadd32_lit (by decide)
  have ht : fadd32 nan 0xBF000000#32 0x3F000000#32 = 0x00000000#32 := fadd32_lit (by decide)
  simp only [logReduce, hexp, hmant, hlow, if_true, he, hhalf, ht, logCombine_at_zero]

theorem logf_one (c : Config) : logf c 0x3F800000#32 = 0x00000000#32 := by
  have hnan : isNaN 0x3F800000#32 = false := by decide
  have hzero : isZero 0x3F800000#32 = false := by decide
  have hs : signBit 0x3F800000#32 = false := by decide
  have hsub : isSubnormal 0x3F800000#32 = false := by decide
  exact logf_eq_of_every_impl (by simp [logfRef, hnan, hzero, hs, hsub, logReduce_one]) fun _ => by
    simp [logfFree, hnan, hzero, hs]

/-- Settles O27, by the class of the lane; only at 1 does the reference compute. -/
theorem logSpecialInputs : Obligations.LogSpecialInputs := fun c _ =>
  ⟨logf_of_isNaN c, logf_of_isZero c (by decide), logf_of_isZero c (by decide),
    fun hs hnan hne => logf_of_signBit c hnan (isZero_of_signBit_of_ne hs hne) hs, logf_posInf c, logf_one c⟩

/-! ### The reference algorithm and a free value -/

/-- The two branches of the reduction differ in the exponent and the argument that they pass on (44_log.md R106). -/
theorem logReduce_eq (nan x1 : W32) (adj : Int) :
    let m := 0x3F000000#32 ||| (0#9 ++ x1.extractLsb' 0 23)
    let low := flt32 m 0x3F3504F3#32
    let e := i2f32 ((x1.extractLsb' 23 8).toNat - 126 + adj)
    logReduce nan x1 adj = logCombine nan (if low then fsub32 nan e 0x3F800000#32 else e)
      (if low then fadd32 nan (fsub32 nan m 0x3F800000#32) m else fsub32 nan m 0x3F800000#32) := by
  simp only [logReduce, and_fracMask]
  split <;> rfl

/-- Settles O28, branch by branch of the reference; on a positive finite lane by `logReduce_eq`. -/
theorem logReferenceAlgorithm : Obligations.LogReferenceAlgorithm := by
  intro c x hc
  simp only [logf_of_reference hc, logfRef, logReduce_eq]
  cases isSubnormal x <;> rfl

/-- The classes of 00_scope.md R11 exclude each other. -/
theorem not_special_of_isSubnormal {b : W32} (h : isSubnormal b = true) : isNaN b = false ∧ isZero b = false := by
  simp only [isSubnormal, Bool.and_eq_true, beq_iff_eq, bne_iff_ne] at h
  simp [isNaN, isZero, h]

/-- A free `LOGF` is held to nothing on a positive subnormal (44_log.md R104). -/
theorem logfFree_of_isSubnormal {nan x : W32} (maxUlp : Nat) (y : W32) (hx : isSubnormal x = true)
    (hs : signBit x = false) : logfFree nan maxUlp x y = y := by
  obtain ⟨hnan, hzero⟩ := not_special_of_isSubnormal hx
  have hinf : x ≠ 0x7F800000#32 := by
    rintro rfl
    exact absurd hx (by decide)
  have hone : x ≠ 0x3F800000#32 := by
    rintro rfl
    exact absurd hx (by decide)
  simp [logfFree, hnan, hzero, hs, hinf, hone, hx]

/-- Settles O29, by the branch of a free `LOGF` for positive subnormals. -/
theorem logOfSubnormalIsFree : Obligations.LogOfSubnormalIsFree := by
  intro c id x hc hx hs
  rw [logf_of_free hc, logfFree_of_isSubnormal _ _ hx hs]

end Sys2Proof.Machine
end

section
/-! ## The exponential `EXP.F32` (O31, O32, O33, O34) -/

namespace Sys2Proof.Machine

/-- Settles O31: every command only queues its response, and the result maps the lanes. -/
theorem expResultHolds : Obligations.ExpResult := by
  refine ⟨decodeInvertsEncode .expF32 rfl, fun s => ?_⟩
  exact ⟨expResult s.cfg s.port.cmdA, exec_eq_respond .expF32 s, fun _ hk => lane_mapLanes32 _ _ hk⟩

/-! ### The branches of `EXPF`, the reference and a free one -/

theorem expf_of_reference {c : Config} (h : c.expImpl = .reference) (x : W32) : expf c x = expfRef c.nanOut x := by
  rw [expf, h]

theorem expf_of_free {c : Config} {id : Nat} (h : c.expImpl = .free id) (x : W32) :
    expf c x = expfFree c.nanOut c.expMaxUlp x (Config.freeExp id x) := by
  rw [expf, h]

/-- What the reference and every free `EXPF` answer on a lane, each configuration answers on it (45_exp.md R120). -/
theorem expf_eq_of_every_impl {c : Config} {x v : W32} (href : expfRef c.nanOut x = v)
    (hfree : ∀ y, expfFree c.nanOut c.expMaxUlp x y = v) : expf c x = v := by
  cases h : c.expImpl with
  | reference => rw [expf_of_reference h, href]
  | free id => rw [expf_of_free h, hfree]

theorem expf_of_isNaN (c : Config) {x : W32} (h : isNaN x = true) : expf c x = c.nanOut :=
  expf_eq_of_every_impl (by simp [expfRef, h]) fun _ => by simp [expfFree, h]

/-- From `EXP_HI` on the answer is `+inf` (45_exp.md R117). -/
theorem expf_of_not_flt32_expHi (c : Config) {x : W32} (hnan : isNaN x = false)
    (hhi : flt32 x Config.expHi = false) : expf c x = 0x7F800000#32 :=
  expf_eq_of_every_impl (by simp [expfRef, hnan, hhi]) fun _ => by simp [expfFree, hnan, hhi]

/-- A lane below `EXP_LO` is a number below `EXP_HI`. -/
theorem flt32_expHi_of_flt32_expLo {x : W32} (h : flt32 x Config.expLo = true) :
    isNaN x = false ∧ flt32 x Config.expHi = true := by
  have hnan : isNaN x = false := by
    by_contra hc
    rw [flt32_of_isNaN (.inl (by simpa using hc))] at h
    cases h
  refine ⟨hnan, ?_⟩
  have hkeys : orderKey Config.expLo < orderKey Config.expHi := by decide
  rw [flt32_eq_of_not_isNaN hnan (by decide), decide_eq_true_eq] at h ⊢
  exact h.trans hkeys

/-- Below `EXP_LO` the answer is `+0` (45_exp.md R118). -/
theorem expf_of_flt32_expLo (c : Config) {x : W32} (hlo : flt32 x Config.expLo = true) : expf c x = 0x00000000#32 := by
  obtain ⟨hnan, hhi⟩ := flt32_expHi_of_flt32_expLo hlo
  exact expf_eq_of_every_impl (by simp [expfRef, hnan, hhi, hlo]) fun _ => by simp [expfFree, hnan, hhi, hlo]

/-! ### The reference at the zeros, where the reduced argument is `+0` and `n` is 0 -/

theorem expPoly_at_zero (nan : W32) : expPoly nan 0x00000000#32 = 0x3F800000#32 := by
  have hprod : fmul32 nan 0x3F000000#32 0x00000000#32 = 0x00000000#32 := fmul32_lit (by decide)
  have hz : fmul32 nan 0x00000000#32 0x00000000#32 = 0x00000000#32 := fmul32_lit (by decide)
  have hadd : fadd32 nan 0x00000000#32 0x00000000#32 = 0x00000000#32 := fadd32_lit (by decide)
  have hone : fadd32 nan 0x00000000#32 0x3F800000#32 = 0x3F800000#32 := fadd32_lit (by decide)
  simp (disch := decide) only [expPoly, hornerStep_at_zero, hz, hprod, hadd, hone]

theorem expN_withSign_zero (nan : W32) (neg : Bool) : expN nan (withSign neg 0) = 0 := by
  have hmul : fmul32 nan (withSign neg 0) 0x3FB8AA3B#32 = withSign neg 0 := fmul32_lit (by cases neg <;> decide)
  have hhalf : fadd32 nan (withSign neg 0) 0x3F000000#32 = 0x3F000000#32 := fadd32_lit (by cases neg <;> decide)
  rw [expN, hmul, hhalf]
  decide

/-- The product with the negative `C2` is `-0`, and its subtraction leaves `+0` of either zero. -/
theorem expReduced_withSign_zero (nan : W32) (neg : Bool) : expReduced nan (withSign neg 0) 0 = 0x00000000#32 := by
  have hnf : i2f32 0 = 0x00000000#32 := by decide
  have hc1 : fmul32 nan 0x00000000#32 0x3F318000#32 = 0x00000000#32 := fmul32_lit (by decide)
  have hc2 : fmul32 nan 0x00000000#32 0xB95E8083#32 = 0x80000000#32 := fmul32_lit (by decide)
  have hsub1 : fsub32 nan (withSign neg 0) 0x00000000#32 = withSign neg 0 := fadd32_lit (by cases neg <;> decide)
  have hsub2 : fsub32 nan (withSign neg 0) 0x80000000#32 = 0x00000000#32 := fadd32_lit (by cases neg <;> decide)
  simp only [expReduced, hnf, hc1, hc2, hsub1, hsub2]

/-- The scale by `2^0`. -/
theorem expScale_one_zero (nan : W32) : expScale nan 0x3F800000#32 0 = 0x3F800000#32 := by
  have hpow : pow2Bits 0 = 0x3F800000#32 := by decide
  rw [expScale, if_neg (by decide), hpow]
  exact fmul32_lit (by decide +kernel)

/-- Both zeros lie between the thresholds. -/
theorem zero_inRange (neg : Bool) : isNaN (withSign neg 0) = false ∧ isZero (withSign neg 0) = true ∧
    flt32 (withSign neg 0) Config.expHi = true ∧ flt32 (withSign neg 0) Config.expLo = false := by
  cases neg <;> decide

/-- `EXPF` of either zero is 1 (45_exp.md R116); the reference computes it. -/
theorem expf_withSign_zero (c : Config) (neg : Bool) : expf c (withSign neg 0) = 0x3F800000#32 := by
  obtain ⟨hnan, hzero, hhi, hlo⟩ := zero_inRange neg
  refine expf_eq_of_every_impl ?_ fun _ => by simp [expfFree, hnan, hzero, hhi, hlo]
  simp [expfRef, hnan, hhi, hlo, expN_withSign_zero, expReduced_withSign_zero, expPoly_at_zero, expScale_one_zero]

/-- Settles O32, by the class of the lane and the two thresholds; only at the zeros does the reference compute. -/
theorem expSpecialInputs : Obligations.ExpSpecialInputs := fun c _ =>
  ⟨expf_of_isNaN c, expf_of_not_flt32_expHi c (by decide) (by decide), expf_of_flt32_expLo c (by decide),
    expf_withSign_zero c false, expf_withSign_zero c true, expf_of_not_flt32_expHi c, expf_of_flt32_expLo c⟩

/-! ### The reference algorithm -/

/-- Settles O33, branch by branch of the reference; in range the two texts of R121 are one computation. -/
theorem expReferenceAlgorithm : Obligations.ExpReferenceAlgorithm := by
  intro c x hc
  simp only [expf_of_reference hc, expfRef, Bool.not_eq_true']
  rfl

/-! ### The thresholds and the range of float32 -/

/-- To be below a lane is to be at most its neighbour below. -/
theorem flt32_iff_le_of_orderKey_succ {x lo hi : W32} (hx : isFinite x = true) (hlo : isFinite lo = true)
    (hhi : isFinite hi = true) (hsucc : orderKey hi = orderKey lo + 1) :
    flt32 x hi = true ↔ realOf x ≤ realOf lo := by
  have hle : realOf x ≤ realOf lo ↔ flt32 lo x = false := by
    rw [← not_lt, ← flt32_iff_of_isFinite hlo hx, Bool.not_eq_true]
  rw [hle, flt32_eq_of_not_isNaN (isNaN_of_isFinite hx) (isNaN_of_isFinite hhi),
    flt32_eq_of_not_isNaN (isNaN_of_isFinite hlo) (isNaN_of_isFinite hx), decide_eq_true_eq, decide_eq_false_iff_not,
    hsucc, Int.lt_add_one_iff, not_lt]

/-- Where the exponential passes `t` between two neighbouring lanes, the upper one separates all lanes. -/
theorem flt32_iff_exp_lt {x lo hi : W32} {t : ℝ} (hx : isFinite x = true) (hlo : isFinite lo = true)
    (hhi : isFinite hi = true) (hsucc : orderKey hi = orderKey lo + 1) (hbelow : Real.exp (realOf lo) < t)
    (habove : t ≤ Real.exp (realOf hi)) : flt32 x hi = true ↔ Real.exp (realOf x) < t := by
  constructor
  · intro h
    have hle := (flt32_iff_le_of_orderKey_succ hx hlo hhi hsucc).1 h
    exact (Real.exp_le_exp.2 hle).trans_lt hbelow
  · intro h
    rw [flt32_iff_of_isFinite hx hhi]
    exact Real.exp_lt_exp.1 (h.trans_le habove)

/-- The value of a lane in the binade of both thresholds, whose last place is `2^-17`. -/
theorem realOf_eq_div {b : W32} {m : Int} (h : signedUnits b = m * 2 ^ 132) : realOf b = m / 2 ^ 17 := by
  rw [realOf, h]
  push_cast
  ring

/-- `ln(2^128 - 2^103) = 128 ln 2 + ln(1 - 2^-25)`, within `2^-24` of `128 ln 2`. -/
theorem log_overflow_bounds : 128 * Real.log 2 - (2 : ℝ)⁻¹ ^ 24 ≤ Real.log (2 ^ 128 - 2 ^ 103) ∧
    Real.log (2 ^ 128 - 2 ^ 103) ≤ 128 * Real.log 2 := by
  have hlow : 1 - (1 - (2⁻¹ : ℝ) ^ 25)⁻¹ ≤ Real.log (1 - 2⁻¹ ^ 25) :=
    Real.one_sub_inv_le_log_of_pos (by norm_num)
  have hhigh : Real.log (1 - (2⁻¹ : ℝ) ^ 25) ≤ 0 := Real.log_nonpos (by norm_num) (by norm_num)
  have hsplit : Real.log ((2 : ℝ) ^ 128 - 2 ^ 103) = 128 * Real.log 2 + Real.log (1 - 2⁻¹ ^ 25) := by
    rw [show (2 : ℝ) ^ 128 - 2 ^ 103 = 2 ^ 128 * (1 - 2⁻¹ ^ 25) by norm_num,
      Real.log_mul (by positivity) (by norm_num), Real.log_pow]
    norm_num
  rw [hsplit]
  constructor <;> linarith

/-- The exponential reaches the overflow threshold between `EXP_HI` and the lane before it (45_exp.md R117). -/
theorem exp_around_expHi : Real.exp (realOf 0x42B17217#32) < 2 ^ 128 - 2 ^ 103 ∧
    (2 : ℝ) ^ 128 - 2 ^ 103 ≤ Real.exp (realOf Config.expHi) := by
  have hlo : realOf 0x42B17217#32 = 0xB17217 / 2 ^ 17 := by
    simpa using realOf_eq_div (m := 0xB17217) (by decide)
  have hhi : realOf Config.expHi = 0xB17218 / 2 ^ 17 := by
    simpa using realOf_eq_div (m := 0xB17218) (by decide)
  obtain ⟨hlow, hhigh⟩ := log_overflow_bounds
  have hpos : (0 : ℝ) < 2 ^ 128 - 2 ^ 103 := by norm_num
  have hgt := Real.log_two_gt_d9
  have hlt := Real.log_two_lt_d9
  rw [hlo, hhi, ← Real.lt_log_iff_exp_lt hpos, ← Real.log_le_iff_le_exp hpos]
  constructor
  · linarith
  · calc Real.log (2 ^ 128 - 2 ^ 103) ≤ 128 * Real.log 2 := hhigh
      _ ≤ 0xB17218 / 2 ^ 17 := by linarith

/-- The exponential reaches the smallest normal between `EXP_LO` and the lane before it (45_exp.md R118). -/
theorem exp_around_expLo : Real.exp (realOf 0xC2AEAC50#32) < (2 : ℝ) ^ (-126 : ℤ) ∧
    (2 : ℝ) ^ (-126 : ℤ) ≤ Real.exp (realOf Config.expLo) := by
  have hlo : realOf 0xC2AEAC50#32 = -0xAEAC50 / 2 ^ 17 := by
    simpa using realOf_eq_div (m := -0xAEAC50) (by decide)
  have hhi : realOf Config.expLo = -0xAEAC4F / 2 ^ 17 := by
    simpa using realOf_eq_div (m := -0xAEAC4F) (by decide)
  have hpos : (0 : ℝ) < 2 ^ (-126 : ℤ) := by positivity
  have hgt := Real.log_two_gt_d9
  have hlt := Real.log_two_lt_d9
  rw [hlo, hhi, ← Real.lt_log_iff_exp_lt hpos, ← Real.log_le_iff_le_exp hpos, Real.log_zpow]
  push_cast
  constructor <;> linarith

/-- Settles O34: each threshold and the lane before it enclose the point where the exponential leaves the range. -/
theorem expThresholdsAreTheFloatRange : Obligations.ExpThresholdsAreTheFloatRange := by
  refine ⟨fun x hx => ?_, fun x hx => ?_⟩
  · obtain ⟨hbelow, habove⟩ := exp_around_expHi
    rw [← not_lt, ← flt32_iff_exp_lt hx (by decide) (by decide) (by decide) hbelow habove, Bool.not_eq_true]
  · obtain ⟨hbelow, habove⟩ := exp_around_expLo
    exact flt32_iff_exp_lt hx (by decide) (by decide) (by decide) hbelow habove

end Sys2Proof.Machine
end

section
/-! ## The illegal command: what the block does, and the fault of the host program (O39, O52) -/

namespace Sys2Proof.Machine

/-- The command side of an edge that accepts an illegal word is the one exception of the block
(60_exceptions.md R131, R136). -/
theorem afterCommand_eq_takeIllegal {s : State} {r : Reject} (ha : cmdAccepted s = true)
    (hw : decode s.port.cmdWord = .error r) : afterCommand s = takeIllegal s := by
  have hphase : commandPhase s = .next (takeIllegal s) := by rw [commandPhase, if_pos ha, hw]
  rwa [commandPhase_eq, Host.Outcome.next.injEq] at hphase

/-- Settles O39: `takeIllegal` queues the response `(0^128, 1)` last, and the rest of the edge is that of every edge. -/
theorem illegalCommandOnlyQueuesItsResponse : Obligations.IllegalCommandOnlyQueuesItsResponse := by
  intro s r hr ha hw
  calc step s = driveNext true (closeEdge s (takeIllegal s)) := by
        rw [step_of_not_rst hr, ha, afterCommand_eq_takeIllegal ha hw]
    _ = driveNext true (closeEdge s { s with queue := s.queue ++ [⟨⟨0, true⟩, s.cfg.lat.illegal⟩] }) := rfl

/-- What the host receives at a step, in reset or out of it: the response it takes
(70_reset_and_hazards.md R145, R150). -/
theorem step_received {s t : State} (h : step s = .next t) :
    t.received = if rspTaken s then s.received ++ [rspOut s] else s.received := by
  obtain ⟨hr, -, rfl⟩ | ⟨-, rfl⟩ := step_cases h
  · simp [not_rspTaken_of_rst hr]
  · simp

/-- Settles O52: a step adds to what the host has received at most the response taken, by `step_received`. -/
theorem hostIsFaultedByIllegalResponses : Obligations.HostIsFaultedByIllegalResponses := by
  intro s t hstep
  rw [hostFaulted, hostFaulted, step_received hstep]
  cases rspTaken s
  case false => simp
  case true => simp

end Sys2Proof.Machine
end

section
/-! ## The response in time: held once offered (O40), offered from its latency on (O42), independent of timing (O50) -/

namespace Sys2Proof.Machine

/-! ### The oldest response while the host takes none -/

theorem rspValid_iff (s : State) :
    rspValid s = true ↔ ∃ e q, s.queue = e :: q ∧ running s = true ∧ e.wait = 0 := by
  rw [rspValid, Option.isSome_iff_exists]
  refine exists_congr fun e => ?_
  rw [offered_eq_some_iff, ← and_assoc, and_comm, exists_and_right]

theorem rspValid_iff_of_queue_cons {s : State} {e : Entry} {q : List Entry} (hq : s.queue = e :: q)
    (hrun : running s = true) : rspValid s = true ↔ e.wait = 0 := by
  simp [rspValid_iff, hq, hrun]

theorem rspOut_of_queue_cons {s : State} {e : Entry} {q : List Entry} (hq : s.queue = e :: q)
    (hv : rspValid s = true) : rspOut s = e.resp := by
  obtain ⟨f, hf⟩ := Option.isSome_iff_exists.1 hv
  obtain ⟨-, -, q', hq'⟩ := (offered_eq_some_iff s f).1 hf
  obtain ⟨rfl, -⟩ := List.cons.inj (hq.symm.trans hq')
  rw [rspOut, hf]

/-- An edge out of reset on which the host takes no response: every queued response stays, one edge older
(70_reset_and_hazards.md R150, R155). -/
theorem step_of_not_rspReady {s t : State} (hr : s.port.rst = false) (hready : s.port.rspReady = false)
    (hstep : step s = .next t) :
    t.queue = (afterCommand s).queue.map Entry.age ∧ t.received = s.received ∧
      t.inReset = (s.inReset && t.port.rst) := by
  have hkept : rspTaken s = false := by simp [rspTaken, hready]
  obtain ⟨hr', -, -⟩ | ⟨-, rfl⟩ := step_cases hstep
  · simp [hr] at hr'
  · simp [hkept]

/-- The oldest response stays the oldest if it is not taken: a new one is queued behind it (10_state.md R31). -/
theorem step_keeps_oldest {s t : State} {e : Entry} {q : List Entry} (hq : s.queue = e :: q) (hr : s.port.rst = false)
    (hready : s.port.rspReady = false) (hstep : step s = .next t) : ∃ q', t.queue = e.age :: q' := by
  rw [(step_of_not_rspReady hr hready hstep).1, afterCommand_queue, hq]
  exact ⟨_, rfl⟩

/-- Settles O40: the offered response is the oldest, which an edge on which it is not taken leaves in its place. -/
theorem offeredResponseIsHeld : Obligations.OfferedResponseIsHeld := by
  intro s t hv hready hstep htr
  obtain ⟨e, q, hq, hrun, hw⟩ := (rspValid_iff s).1 hv
  obtain ⟨hr, hreset⟩ := (running_iff s).1 hrun
  obtain ⟨-, hreceived, hreset'⟩ := step_of_not_rspReady hr hready hstep
  obtain ⟨q', hq'⟩ := step_keeps_oldest hq hr hready hstep
  have hrun' : running t = true := (running_iff t).2 ⟨htr, by simp [hreset', hreset]⟩
  have hv' : rspValid t = true := (rspValid_iff_of_queue_cons hq' hrun').2 (by simp [Entry.age, hw])
  exact ⟨hv', by rw [rspOut_of_queue_cons hq' hv', rspOut_of_queue_cons hq hv]; rfl, hreceived⟩

/-! ### The latency of a command's own response -/

/-- What the host drives has the property `P`, in this cycle and in every cycle of its script. -/
def State.alwaysDrives (P : Port → Prop) (s : State) : Prop := P s.port ∧ ∀ c ∈ s.script, P c.port

/-- An edge keeps a property of all that the host drives, if withdrawing a command keeps it (log entry 2). -/
theorem step_alwaysDrives {P : Port → Prop} {s t : State} (h : s.alwaysDrives P)
    (hw : ∀ p v, P p → P { p with cmdValid := v }) (hstep : step s = .next t) : t.alwaysDrives P := by
  obtain ⟨hport, hscript⟩ := h
  have hnext (b : Bool) : P (nextCycle b s).port := nextCycle_port b hport hscript hw
  obtain ⟨-, -, rfl⟩ | ⟨-, rfl⟩ := step_cases hstep
  · exact ⟨by simpa using hnext false, fun c hc => hscript c (List.mem_of_mem_tail hc)⟩
  · exact ⟨by simpa using hnext (cmdAccepted s), fun c hc => hscript c (List.mem_of_mem_tail (by simpa using hc))⟩

/-- A host that does not reset and takes no response. -/
def Port.leavesResponse (p : Port) : Prop := p.rst = false ∧ p.rspReady = false

/-- One edge of such a host that breaks no offer: the block stays out of reset, and the host goes on as before. -/
theorem step_of_leavesResponse {s : State} {n : Nat} (hreset : s.inReset = false)
    (hleaves : s.alwaysDrives Port.leavesResponse) (hkeeps : keepsOffers (n + 1) s = true) :
    ∃ t, step s = .next t ∧ t.queue = (afterCommand s).queue.map Entry.age ∧ t.inReset = false ∧
      t.alwaysDrives Port.leavesResponse ∧ keepsOffers n t = true := by
  obtain ⟨hr, hready⟩ := hleaves.1
  obtain ⟨t, hstep, hkeeps', -⟩ := step_of_keepsOffers hr hkeeps
  obtain ⟨hqueue, -, hreset'⟩ := step_of_not_rspReady hr hready hstep
  exact ⟨t, hstep, hqueue, by simp [hreset', hreset], step_alwaysDrives hleaves (fun _ _ hp => hp) hstep, hkeeps'⟩

/-- After `n` edges of such a host the oldest response is still the oldest, with `n` edges less to wait; by induction on
the edges. -/
theorem edges_age_oldest (n : Nat) {s : State} {r : Response} {w : Nat} {q : List Entry} (hq : s.queue = ⟨r, w⟩ :: q)
    (hreset : s.inReset = false) (hleaves : s.alwaysDrives Port.leavesResponse) (hkeeps : keepsOffers n s = true) :
    ∃ t q', edges n s = .next t ∧ t.queue = ⟨r, w - n⟩ :: q' ∧ running t = true := by
  induction n generalizing s w q with
  | zero => exact ⟨s, q, rfl, hq, (running_iff s).2 ⟨hleaves.1.1, hreset⟩⟩
  | succ n ih =>
    obtain ⟨t, hstep, hqueue, hreset', hleaves', hkeeps'⟩ := step_of_leavesResponse hreset hleaves hkeeps
    rw [afterCommand_queue, hq] at hqueue
    obtain ⟨u, q', hedges, hqueue', hrun⟩ := ih hqueue hreset' hleaves' hkeeps'
    refine ⟨u, q', by rw [edges_succ _ hstep, hedges], ?_, hrun⟩
    rw [hqueue', Nat.sub_sub, Nat.add_comm 1 n]

/-- Settles O42: the first edge queues the response as the oldest, and `edges_age_oldest` counts the others. -/
theorem responseIsOfferedAfterItsLatency : Obligations.ResponseIsOfferedAfterItsLatency := by
  intro s k hq ha hready hscript hkeeps hk
  obtain ⟨n, rfl⟩ := Nat.exists_eq_add_of_le' hk
  obtain ⟨-, hrun, -⟩ := (cmdAccepted_iff s).1 ha
  obtain ⟨hr, hreset⟩ := (running_iff s).1 hrun
  obtain ⟨t, hstep, hqueue, hreset', hleaves', hkeeps'⟩ :=
    step_of_leavesResponse hreset ⟨⟨hr, hready⟩, hscript⟩ hkeeps
  rw [afterCommand_queue, hq, if_pos ha] at hqueue
  obtain ⟨u, q, hedges, hqueue', hrun'⟩ := edges_age_oldest n hqueue hreset' hleaves' hkeeps'
  refine ⟨u, by rw [edges_succ _ hstep, hedges], ?_, rspOut_of_queue_cons hqueue'⟩
  rw [rspValid_iff_of_queue_cons hqueue' hrun', Nat.sub_sub, Nat.sub_eq_zero_iff_le, Nat.add_comm 1 n]

/-! ### The response and the timing -/

theorem logf_congr {c c' : Config} (hnan : c'.nanOut = c.nanOut) (himpl : c'.logImpl = c.logImpl)
    (hulp : c'.logMaxUlp = c.logMaxUlp) : logf c' = logf c := by
  funext x
  rw [logf, logf, hnan, himpl, hulp]

theorem expf_congr {c c' : Config} (hnan : c'.nanOut = c.nanOut) (himpl : c'.expImpl = c.expImpl)
    (hulp : c'.expMaxUlp = c.expMaxUlp) : expf c' = expf c := by
  funext x
  rw [expf, expf, hnan, himpl, hulp]

/-- Of the configuration, a command's response depends on `NAN_OUT` and on the lane functions of `LOG.F32` and `EXP.F32`
alone (70_reset_and_hazards.md R158). -/
theorem execWord_congr {c c' : Config} (hnan : c'.nanOut = c.nanOut) (hlog : logf c' = logf c) (hexp : expf c' = expf c)
    (w : W32) (a b m : V128) : execWord c' w a b m = execWord c w a b m := by
  cases hw : decode w with
  | error r => rw [execWord_of_error hw, execWord_of_error hw]
  | ok i =>
    rw [execWord_of_ok hw, execWord_of_ok hw]
    cases i with
    | view | sel | hmaxU8 | hmaxS16 | rshiftF32 | lshiftF32 => rfl
    | hsumF32 => rw [responseOf, responseOf, hnan]
    | logF32 => rw [responseOf, responseOf, logResult, logResult, hlog]
    | expF32 => rw [responseOf, responseOf, expResult, expResult, hexp]

/-- The last response received or queued after an edge that accepts a command is that command's
(70_reset_and_hazards.md R151). -/
theorem getLast?_ledger_of_accepted {s t : State} (ha : cmdAccepted s = true) (hstep : step s = .next t) :
    (t.received ++ t.queue.map Entry.resp).getLast? =
      some (execWord s.cfg s.port.cmdWord s.port.cmdA s.port.cmdB s.port.cmdM) := by
  obtain ⟨-, hrun, -⟩ := (cmdAccepted_iff s).1 ha
  rw [responsesAreConservedInOrder s t ((running_iff s).1 hrun).1 hstep, if_pos ha, List.getLast?_concat]

/-- Settles O50: each accepting edge queues last `execWord` of its word and operands, which `execWord_congr` ties to the
configuration. -/
theorem responseDoesNotDependOnTiming : Obligations.ResponseDoesNotDependOnTiming := by
  intro s s' t t' ha ha' hstep hstep' hword hA hB hM hnan hlog hexp hlogUlp hexpUlp
  rw [getLast?_ledger_of_accepted ha hstep, getLast?_ledger_of_accepted ha' hstep', hword, hA, hB, hM,
    execWord_congr hnan (logf_congr hnan hlog hlogUlp) (expf_congr hnan hexp hexpUlp)]

end Sys2Proof.Machine
end

section
/-! ## A command kept on the port is accepted (O44) -/

namespace Sys2Proof.Machine

/-- A command waits on the port of a block out of reset with room in its queue, and the host goes on driving just that. -/
structure State.WaitsWithRoom (s : State) : Prop where
  valid    : s.port.cmdValid = true
  noRst    : s.port.rst = false
  released : s.inReset = false
  room     : s.queue.length < s.cfg.inflightMax
  script   : ∀ c ∈ s.script, c.port = s.port

theorem keepsOffer_self {p : Port} (h : p.cmdValid = true) : keepsOffer p p = true :=
  (keepsOffer_iff p p).2 ⟨h, rfl, (sameOperands_iff _ p p).2 ⟨rfl, rfl, rfl⟩⟩

theorem nextCycle_false_port {s : State} (h : ∀ c ∈ s.script, c.port = s.port) : (nextCycle false s).port = s.port := by
  cases hs : s.script with
  | nil => simp [nextCycle, hs]
  | cons c cs => simpa [nextCycle, hs] using h c (by simp [hs])

/-- With room, a waiting command is not accepted only because the block holds `cmd_ready` back
(70_reset_and_hazards.md R149). -/
theorem holdsReady_of_not_accepted {s : State} (h : s.WaitsWithRoom) (ha : cmdAccepted s = false) :
    holdsReady s = true := by
  have hrun : running s = true := (running_iff s).2 ⟨h.noRst, h.released⟩
  simpa [h.valid, hrun, h.room] using (cmdAccepted_iff s).not.1 (by simpa using ha)

/-- An edge that does not accept a waiting command: it waits on, and the block has used up one edge of its bound. -/
theorem step_of_waitsWithRoom {s : State} (h : s.WaitsWithRoom) (ha : cmdAccepted s = false) :
    ∃ t, step s = .next t ∧ t.WaitsWithRoom ∧ t.port = s.port ∧ t.cfg = s.cfg ∧ t.stalled = s.stalled + 1 := by
  have hport := nextCycle_false_port h.script
  have hstep := step_of_pendingOffer h.noRst h.valid ha (by rw [hport, h.noRst])
  rw [hport, if_pos (keepsOffer_self h.valid), afterCommand_of_not_accepted ha] at hstep
  refine ⟨_, hstep, ⟨?_, ?_, ?_, ?_, ?_⟩, hport, rfl, ?_⟩
  · rw [enterCycle_port, hport, h.valid]
  · rw [enterCycle_port, hport, h.noRst]
  · simp [h.released]
  · exact (closeEdge_queue_length_le s s).trans_lt h.room
  · rw [enterCycle_port, hport]
    exact fun c hc => h.script c (List.mem_of_mem_tail hc)
  · have hrun : running s = true := (running_iff s).2 ⟨h.noRst, h.released⟩
    simp [hrun, hasRoom, h.room, holdsReady_of_not_accepted h ha]

/-- A waiting command is accepted within the edges that the block may still hold `cmd_ready` back; by induction on
their number. -/
theorem exists_accepted_of_waitsWithRoom (n : Nat) {s : State} (h : s.WaitsWithRoom)
    (hn : s.cfg.readyHoldMax - s.stalled = n) :
    ∃ k ≤ n, ∃ t, edges k s = .next t ∧ cmdAccepted t = true ∧ t.port = s.port := by
  cases ha : cmdAccepted s with
  | true => exact ⟨0, Nat.zero_le n, s, rfl, ha, rfl⟩
  | false =>
    have hbound : s.stalled < s.cfg.readyHoldMax := by
      have hhold := holdsReady_of_not_accepted h ha
      simp only [holdsReady, Bool.and_eq_true, decide_eq_true_eq] at hhold
      exact hhold.2
    obtain ⟨t, hstep, ht, hport, hcfg, hstalled⟩ := step_of_waitsWithRoom h ha
    cases n with
    | zero => omega
    | succ n =>
      obtain ⟨k, hk, u, hedges, hu, hport'⟩ :=
        exists_accepted_of_waitsWithRoom n ht (by rw [hcfg, hstalled]; omega)
      exact ⟨k + 1, Nat.succ_le_succ hk, u, by rw [edges_succ _ hstep, hedges], hu, hport'.trans hport⟩

/-- Settles O44: the block may hold `cmd_ready` back for at most `readyHoldMax` edges. -/
theorem offeredCommandIsAccepted : Obligations.OfferedCommandIsAccepted := by
  intro s hvalid hr hreset hroom hscript
  obtain ⟨k, hk, t, hedges, ha, hport⟩ :=
    exists_accepted_of_waitsWithRoom _ ⟨hvalid, hr, hreset, hroom, hscript⟩ rfl
  exact ⟨k, hk.trans (Nat.sub_le _ _), t, hedges, ha, by rw [hport]⟩

end Sys2Proof.Machine
end
